-- ==== Sys2Proof/Word.lean ====
section
/-! DEFINITION. The widths of the block's values (spec/00_scope.md R8, R9; spec/30_encoding.md R101): every value is
unsigned, bit 0 is the least significant. -/

namespace Sys2Proof

/-- A byte: a general register, a timer, a byte of memory, an 8-bit immediate `kk` (10_state.md R30, R39, R44). -/
abbrev Byte := BitVec 8

/-- A 16-bit value: an instruction word, `I`, `PC`, a stack entry (10_state.md R33, R34, R38; 30_encoding.md R100). -/
abbrev Word := BitVec 16

/-- A 4-bit field: a register index `x` or `y`, a row count `n`, a key index (30_encoding.md R101). -/
abbrev Nibble := BitVec 4

/-- A 12-bit address field `nnn` (30_encoding.md R101). -/
abbrev Addr12 := BitVec 12

end Sys2Proof
end

