-- ==== Sys2Proof/Syntax.lean ====
section
/-! DEFINITION. The 34 instructions of spec/30_encoding.md R104, one constructor per row of spec/opcode_table.json, in the
table's order. The operand types have exactly the widths of the fields of R101, so an operand that does not fit its field
cannot be written; every value of every field is legal (R103). -/

namespace Sys2Proof

inductive Instr
  /-- 00E0, CLS: clear the framebuffer. -/
  | cls
  /-- 00EE, RET: return from a subroutine. -/
  | ret
  /-- 1NNN, JP nnn. -/
  | jp (nnn : Addr12)
  /-- 2NNN, CALL nnn. -/
  | call (nnn : Addr12)
  /-- 3XNN, SE Vx, kk. -/
  | seImm (x : Nibble) (kk : Byte)
  /-- 4XNN, SNE Vx, kk. -/
  | sneImm (x : Nibble) (kk : Byte)
  /-- 5XY0, SE Vx, Vy. -/
  | seReg (x y : Nibble)
  /-- 6XNN, LD Vx, kk. -/
  | ldImm (x : Nibble) (kk : Byte)
  /-- 7XNN, ADD Vx, kk. -/
  | addImm (x : Nibble) (kk : Byte)
  /-- 8XY0, LD Vx, Vy. -/
  | ldReg (x y : Nibble)
  /-- 8XY1, OR Vx, Vy. -/
  | orReg (x y : Nibble)
  /-- 8XY2, AND Vx, Vy. -/
  | andReg (x y : Nibble)
  /-- 8XY3, XOR Vx, Vy. -/
  | xorReg (x y : Nibble)
  /-- 8XY4, ADD Vx, Vy. -/
  | addReg (x y : Nibble)
  /-- 8XY5, SUB Vx, Vy. -/
  | subReg (x y : Nibble)
  /-- 8XY6, SHR Vx {, Vy}. -/
  | shr (x y : Nibble)
  /-- 8XY7, SUBN Vx, Vy. -/
  | subnReg (x y : Nibble)
  /-- 8XYE, SHL Vx {, Vy}. -/
  | shl (x y : Nibble)
  /-- 9XY0, SNE Vx, Vy. -/
  | sneReg (x y : Nibble)
  /-- ANNN, LD I, nnn. -/
  | ldI (nnn : Addr12)
  /-- BNNN, JP V0, nnn. -/
  | jpV0 (nnn : Addr12)
  /-- CXNN, RND Vx, kk. -/
  | rnd (x : Nibble) (kk : Byte)
  /-- DXYN, DRW Vx, Vy, n. -/
  | drw (x y n : Nibble)
  /-- EX9E, SKP Vx. -/
  | skp (x : Nibble)
  /-- EXA1, SKNP Vx. -/
  | sknp (x : Nibble)
  /-- FX07, LD Vx, DT. -/
  | ldVxDt (x : Nibble)
  /-- FX0A, LD Vx, K. -/
  | ldVxK (x : Nibble)
  /-- FX15, LD DT, Vx. -/
  | ldDtVx (x : Nibble)
  /-- FX18, LD ST, Vx. -/
  | ldStVx (x : Nibble)
  /-- FX1E, ADD I, Vx. -/
  | addIVx (x : Nibble)
  /-- FX29, LD F, Vx. -/
  | ldFVx (x : Nibble)
  /-- FX33, LD B, Vx. -/
  | ldBVx (x : Nibble)
  /-- FX55, LD [I], Vx. -/
  | storeRegs (x : Nibble)
  /-- FX65, LD Vx, [I]. -/
  | loadRegs (x : Nibble)
  deriving DecidableEq, Repr

end Sys2Proof
end

