-- ==== Sys2Proof/WellFormed.lean ====
section
/-! DEFINITION. Which words are instructions: the opcode map of spec/30_encoding.md R104, transcribed row by row, and the
check it gives. An INSTRUCTION of Sys2Proof/Syntax.lean is well formed by its type (every operand has exactly its field's
width, and R103 restricts no field further), so what can be ill formed is a WORD: one that no row matches (R106). The
decoder and the encoder of Sys2Proof/Decode.lean are written from R101 and R102 and do not use this table. -/

namespace Sys2Proof

/-- A row of R104: a word is the row's instruction when `w & mask = fixed`. -/
structure Row where
  pattern : String
  fixed   : Word
  mask    : Word
  deriving DecidableEq, Repr

/-- The row matches the word (R104). -/
def Row.holds (r : Row) (w : Word) : Bool := w &&& r.mask == r.fixed

/-- The row of R104 that an instruction belongs to. -/
def Instr.row : Instr → Row
  | .cls => ⟨"00E0", 0x00E0#16, 0xFFFF#16⟩
  | .ret => ⟨"00EE", 0x00EE#16, 0xFFFF#16⟩
  | .jp _ => ⟨"1NNN", 0x1000#16, 0xF000#16⟩
  | .call _ => ⟨"2NNN", 0x2000#16, 0xF000#16⟩
  | .seImm _ _ => ⟨"3XNN", 0x3000#16, 0xF000#16⟩
  | .sneImm _ _ => ⟨"4XNN", 0x4000#16, 0xF000#16⟩
  | .seReg _ _ => ⟨"5XY0", 0x5000#16, 0xF00F#16⟩
  | .ldImm _ _ => ⟨"6XNN", 0x6000#16, 0xF000#16⟩
  | .addImm _ _ => ⟨"7XNN", 0x7000#16, 0xF000#16⟩
  | .ldReg _ _ => ⟨"8XY0", 0x8000#16, 0xF00F#16⟩
  | .orReg _ _ => ⟨"8XY1", 0x8001#16, 0xF00F#16⟩
  | .andReg _ _ => ⟨"8XY2", 0x8002#16, 0xF00F#16⟩
  | .xorReg _ _ => ⟨"8XY3", 0x8003#16, 0xF00F#16⟩
  | .addReg _ _ => ⟨"8XY4", 0x8004#16, 0xF00F#16⟩
  | .subReg _ _ => ⟨"8XY5", 0x8005#16, 0xF00F#16⟩
  | .shr _ _ => ⟨"8XY6", 0x8006#16, 0xF00F#16⟩
  | .subnReg _ _ => ⟨"8XY7", 0x8007#16, 0xF00F#16⟩
  | .shl _ _ => ⟨"8XYE", 0x800E#16, 0xF00F#16⟩
  | .sneReg _ _ => ⟨"9XY0", 0x9000#16, 0xF00F#16⟩
  | .ldI _ => ⟨"ANNN", 0xA000#16, 0xF000#16⟩
  | .jpV0 _ => ⟨"BNNN", 0xB000#16, 0xF000#16⟩
  | .rnd _ _ => ⟨"CXNN", 0xC000#16, 0xF000#16⟩
  | .drw _ _ _ => ⟨"DXYN", 0xD000#16, 0xF000#16⟩
  | .skp _ => ⟨"EX9E", 0xE09E#16, 0xF0FF#16⟩
  | .sknp _ => ⟨"EXA1", 0xE0A1#16, 0xF0FF#16⟩
  | .ldVxDt _ => ⟨"FX07", 0xF007#16, 0xF0FF#16⟩
  | .ldVxK _ => ⟨"FX0A", 0xF00A#16, 0xF0FF#16⟩
  | .ldDtVx _ => ⟨"FX15", 0xF015#16, 0xF0FF#16⟩
  | .ldStVx _ => ⟨"FX18", 0xF018#16, 0xF0FF#16⟩
  | .addIVx _ => ⟨"FX1E", 0xF01E#16, 0xF0FF#16⟩
  | .ldFVx _ => ⟨"FX29", 0xF029#16, 0xF0FF#16⟩
  | .ldBVx _ => ⟨"FX33", 0xF033#16, 0xF0FF#16⟩
  | .storeRegs _ => ⟨"FX55", 0xF055#16, 0xF0FF#16⟩
  | .loadRegs _ => ⟨"FX65", 0xF065#16, 0xF0FF#16⟩

/-- One instruction of every row, in the order of R104. -/
def rowSamples : List Instr :=
  [.cls, .ret, .jp 0, .call 0, .seImm 0 0, .sneImm 0 0, .seReg 0 0, .ldImm 0 0, .addImm 0 0,
   .ldReg 0 0, .orReg 0 0, .andReg 0 0, .xorReg 0 0, .addReg 0 0, .subReg 0 0, .shr 0 0, .subnReg 0 0, .shl 0 0,
   .sneReg 0 0, .ldI 0, .jpV0 0, .rnd 0 0, .drw 0 0 0, .skp 0, .sknp 0, .ldVxDt 0, .ldVxK 0,
   .ldDtVx 0, .ldStVx 0, .addIVx 0, .ldFVx 0, .ldBVx 0, .storeRegs 0, .loadRegs 0]

/-- The opcode map of R104, rows 1 to 34. -/
def opcodeTable : List Row := rowSamples.map Instr.row

/-- A word is well formed when some row of R104 matches it; any other word is illegal (R106). -/
def wellFormedWord (w : Word) : Bool := opcodeTable.any (·.holds w)

end Sys2Proof
end

