-- ==== Sys2Proof/Decode.lean ====
section
/-! DEFINITION. The decoder of spec/30_encoding.md R101 to R107, total on every word and on any bytes, and the encoder,
written from the layouts of R102. -/

namespace Sys2Proof

/-- `op = w[15:12]`, the family (R101). -/
def opField (w : Word) : Nibble := w.extractLsb' 12 4
/-- `x = w[11:8]` (R101). -/
def xField (w : Word) : Nibble := w.extractLsb' 8 4
/-- `y = w[7:4]` (R101). -/
def yField (w : Word) : Nibble := w.extractLsb' 4 4
/-- `n = w[3:0]` (R101). -/
def nField (w : Word) : Nibble := w.extractLsb' 0 4
/-- `kk = w[7:0]` (R101). -/
def kkField (w : Word) : Byte := w.extractLsb' 0 8
/-- `nnn = w[11:0]` (R101). -/
def nnnField (w : Word) : Addr12 := w.extractLsb' 0 12

/-- What the decoder answers for a word: one row of R104 with its fields, or the unknown instruction, by name (R105). -/
inductive Decoded
  | known (i : Instr)
  | unknown (w : Word)
  deriving DecidableEq, Repr

/-- Family 0: the two fixed words; every other 0NNN ("SYS") is unknown (R104, R107). -/
def decodeFamily0 (w : Word) : Decoded :=
  match nnnField w with
  | 0x0E0#12 => .known .cls
  | 0x0EE#12 => .known .ret
  | _ => .unknown w

/-- Family 8: the register-register operations, by the low nibble (R104 rows 10 to 18). -/
def decodeFamily8 (w : Word) : Decoded :=
  match nField w with
  | 0x0#4 => .known (.ldReg (xField w) (yField w))
  | 0x1#4 => .known (.orReg (xField w) (yField w))
  | 0x2#4 => .known (.andReg (xField w) (yField w))
  | 0x3#4 => .known (.xorReg (xField w) (yField w))
  | 0x4#4 => .known (.addReg (xField w) (yField w))
  | 0x5#4 => .known (.subReg (xField w) (yField w))
  | 0x6#4 => .known (.shr (xField w) (yField w))
  | 0x7#4 => .known (.subnReg (xField w) (yField w))
  | 0xE#4 => .known (.shl (xField w) (yField w))
  | _ => .unknown w

/-- Family E: the key tests, by the low byte (R104 rows 24, 25). -/
def decodeFamilyE (w : Word) : Decoded :=
  match kkField w with
  | 0x9E#8 => .known (.skp (xField w))
  | 0xA1#8 => .known (.sknp (xField w))
  | _ => .unknown w

/-- Family F: timers, key wait, index and memory, by the low byte (R104 rows 26 to 34). -/
def decodeFamilyF (w : Word) : Decoded :=
  match kkField w with
  | 0x07#8 => .known (.ldVxDt (xField w))
  | 0x0A#8 => .known (.ldVxK (xField w))
  | 0x15#8 => .known (.ldDtVx (xField w))
  | 0x18#8 => .known (.ldStVx (xField w))
  | 0x1E#8 => .known (.addIVx (xField w))
  | 0x29#8 => .known (.ldFVx (xField w))
  | 0x33#8 => .known (.ldBVx (xField w))
  | 0x55#8 => .known (.storeRegs (xField w))
  | 0x65#8 => .known (.loadRegs (xField w))
  | _ => .unknown w

/-- The decoder: pure and total, by the family nibble; a word that agrees with a row in its family only is unknown,
never the nearest row (R105). -/
def decode (w : Word) : Decoded :=
  match opField w with
  | 0x0#4 => decodeFamily0 w
  | 0x1#4 => .known (.jp (nnnField w))
  | 0x2#4 => .known (.call (nnnField w))
  | 0x3#4 => .known (.seImm (xField w) (kkField w))
  | 0x4#4 => .known (.sneImm (xField w) (kkField w))
  | 0x5#4 => if nField w = 0 then .known (.seReg (xField w) (yField w)) else .unknown w
  | 0x6#4 => .known (.ldImm (xField w) (kkField w))
  | 0x7#4 => .known (.addImm (xField w) (kkField w))
  | 0x8#4 => decodeFamily8 w
  | 0x9#4 => if nField w = 0 then .known (.sneReg (xField w) (yField w)) else .unknown w
  | 0xA#4 => .known (.ldI (nnnField w))
  | 0xB#4 => .known (.jpV0 (nnnField w))
  | 0xC#4 => .known (.rnd (xField w) (kkField w))
  | 0xD#4 => .known (.drw (xField w) (yField w) (nField w))
  | 0xE#4 => decodeFamilyE w
  | 0xF#4 => decodeFamilyF w
  | _ => .unknown w

/-- The word of two consecutive bytes, the high byte at the lower address (R100; 20_memory.md R77, R78). -/
def wordOfBytes (hi lo : Byte) : Word := hi ++ lo
/-- The byte of a word at the lower address (R100). -/
def highByte (w : Word) : Byte := w.extractLsb' 8 8
/-- The byte of a word at the higher address (R100). -/
def lowByte (w : Word) : Byte := w.extractLsb' 0 8

/-- What the byte decoder answers: an instruction and the bytes after it, or a rejection by name. -/
inductive DecodedBytes
  | known (i : Instr) (rest : List Byte)
  | unknown (w : Word)
  | truncated
  deriving DecidableEq, Repr

/-- Reads one instruction from the front of any bytes: one 16-bit word, always (R100). -/
def decodeBytes : List Byte → DecodedBytes
  | hi :: lo :: rest =>
    match decode (wordOfBytes hi lo) with
    | .known i => .known i rest
    | .unknown w => .unknown w
  | _ => .truncated

/-- The instruction the decoder reads from an instruction whose bits are `w`, numbered as spec/opcode_table.json numbers
them (bit 0 the least significant bit of the one word), laid out high byte first. -/
def decodeTableWord (nbits w : Nat) : Option Instr :=
  let word : Word := BitVec.ofNat 16 (w % 2 ^ nbits)
  match decodeBytes [highByte word, lowByte word] with
  | .known i _ => some i
  | _ => none

/-- The word of an instruction, laid out as R102 writes its format, high bits first. -/
def encode : Instr → Word
  | .cls => 0x00E0#16
  | .ret => 0x00EE#16
  | .jp nnn => 0x1#4 ++ nnn
  | .call nnn => 0x2#4 ++ nnn
  | .seImm x kk => 0x3#4 ++ x ++ kk
  | .sneImm x kk => 0x4#4 ++ x ++ kk
  | .seReg x y => 0x5#4 ++ x ++ y ++ 0x0#4
  | .ldImm x kk => 0x6#4 ++ x ++ kk
  | .addImm x kk => 0x7#4 ++ x ++ kk
  | .ldReg x y => 0x8#4 ++ x ++ y ++ 0x0#4
  | .orReg x y => 0x8#4 ++ x ++ y ++ 0x1#4
  | .andReg x y => 0x8#4 ++ x ++ y ++ 0x2#4
  | .xorReg x y => 0x8#4 ++ x ++ y ++ 0x3#4
  | .addReg x y => 0x8#4 ++ x ++ y ++ 0x4#4
  | .subReg x y => 0x8#4 ++ x ++ y ++ 0x5#4
  | .shr x y => 0x8#4 ++ x ++ y ++ 0x6#4
  | .subnReg x y => 0x8#4 ++ x ++ y ++ 0x7#4
  | .shl x y => 0x8#4 ++ x ++ y ++ 0xE#4
  | .sneReg x y => 0x9#4 ++ x ++ y ++ 0x0#4
  | .ldI nnn => 0xA#4 ++ nnn
  | .jpV0 nnn => 0xB#4 ++ nnn
  | .rnd x kk => 0xC#4 ++ x ++ kk
  | .drw x y n => 0xD#4 ++ x ++ y ++ n
  | .skp x => 0xE#4 ++ x ++ 0x9E#8
  | .sknp x => 0xE#4 ++ x ++ 0xA1#8
  | .ldVxDt x => 0xF#4 ++ x ++ 0x07#8
  | .ldVxK x => 0xF#4 ++ x ++ 0x0A#8
  | .ldDtVx x => 0xF#4 ++ x ++ 0x15#8
  | .ldStVx x => 0xF#4 ++ x ++ 0x18#8
  | .addIVx x => 0xF#4 ++ x ++ 0x1E#8
  | .ldFVx x => 0xF#4 ++ x ++ 0x29#8
  | .ldBVx x => 0xF#4 ++ x ++ 0x33#8
  | .storeRegs x => 0xF#4 ++ x ++ 0x55#8
  | .loadRegs x => 0xF#4 ++ x ++ 0x65#8

/-- The two bytes of an instruction, in the order they stand in memory (R100). -/
def encodeBytes (i : Instr) : List Byte := [highByte (encode i), lowByte (encode i)]

end Sys2Proof
end

