-- ==== Sys2Proof/Config.lean ====
section
/-! DEFINITION. What the spec lets an implementation choose (spec/00_scope.md R5, R6) and the one free value
(spec/44_display_random.md R250). The TYPES of the choices stand here; the values THIS hardware takes are
`Machine.hardware` in Sys2Proof/Machine/Params.lean. -/

namespace Sys2Proof

/-- QUIRK_SHIFT_SRC: which register 8XY6 and 8XYE shift (R5, D2; 41_alu.md R181, R183). -/
inductive ShiftSource
  | vx
  | vy
  deriving DecidableEq, Repr

/-- QUIRK_JUMP_REG: which register BNNN adds (R5, D3; 45_control_transfer.md R274). -/
inductive JumpRegister
  | v0
  | vx
  deriving DecidableEq, Repr

/-- QUIRK_LOADSTORE_I: what FX55 and FX65 do to `I` (R5, D4; 43_index_memory.md R227, R228). -/
inductive LoadStoreIndex
  | unchanged
  | increment
  deriving DecidableEq, Repr

/-- QUIRK_LOGIC_VF: what 8XY1, 8XY2 and 8XY3 do to VF (R5, D5; 41_alu.md R176 to R178). -/
inductive LogicFlag
  | unchanged
  | reset
  deriving DecidableEq, Repr

/-- SYS_POLICY: what the words 0NNN other than 00E0 and 00EE do (R5, D6; 45_control_transfer.md R275). -/
inductive SysPolicy
  | fault
  | noOp
  deriving DecidableEq, Repr

/-- The six decided parameters of 00_scope.md R6. -/
structure Config where
  fontBase       : Nat
  shiftSource    : ShiftSource
  jumpRegister   : JumpRegister
  loadStoreIndex : LoadStoreIndex
  logicFlag      : LogicFlag
  sysPolicy      : SysPolicy
  deriving DecidableEq, Repr

/-- The byte the entropy source gives at the `k`-th draw: a FREE VALUE, with no law (44_display_random.md R250, D24;
assumption log entry 3). Nothing can evaluate it, so what is proved holds for every sequence of bytes. -/
opaque Config.randByte : Nat → Byte

end Sys2Proof
end

