-- ==== Sys2Proof/Machine/Params.lean ====
section
/-! DEFINITION. The parameter values of THIS hardware (spec/00_scope.md R5). They stand here, and not in
Sys2Proof/Config.lean, because a wrong quirk is something a test could show and this is a place a repair may mend. -/

namespace Sys2Proof.Machine

/-- The six decided parameters at the values of R5 (D2 to D6, D11; log entry 7). -/
def hardware : Config where
  fontBase       := 0x000
  shiftSource    := .vx
  jumpRegister   := .v0
  loadStoreIndex := .unchanged
  logicFlag      := .unchanged
  sysPolicy      := .fault

/-- MEM_SIZE, 4096 bytes (R5). -/
def memSize : Nat := 4096

/-- PROGRAM_START, 0x200 (R5). -/
def programStart : Nat := 0x200

/-- ROM_MAX, 3584 bytes (R5). -/
def romMax : Nat := 3584

end Sys2Proof.Machine
end

