-- ==== Sys2Proof/Machine/State.lean ====
section
/-! DEFINITION. The state of the block (spec/10_state.md R30 to R48), as plain data, and its reset value
(spec/70_reset_and_hazards.md R350). -/

namespace Sys2Proof.Machine

/-- The engine state `E` (10_state.md R40). -/
inductive Engine
  | running
  | waitingForKey
  | haltedOnFault
  deriving DecidableEq, Repr

/-- The six fault causes of 60_exceptions.md R310. Taking one is a NEXT state of the model (log entry 4). -/
inductive FaultCode
  /-- Fetch, DXYN, FX33, FX55, FX65: an address above 0xFFF. -/
  | memOutOfRange
  /-- 2NNN with 16 entries on the stack. -/
  | stackOverflow
  /-- 00EE with no entry on the stack. -/
  | stackUnderflow
  /-- Decode: the word matches no row of the opcode map. -/
  | unknownInstruction
  /-- Fetch: an odd `PC`. -/
  | pcMisaligned
  /-- FX33, FX55: a data write into the font region. -/
  | fontWrite
  deriving DecidableEq, Repr

/-- The fault record `FR` (10_state.md R41). `code = none` is the spec's code 0, "no fault has occurred". -/
structure FaultRecord where
  code : Option FaultCode
  pc   : Word
  word : Word
  addr : Word
  deriving DecidableEq, Repr

/-- `FR` at reset: code None, the other fields 0 (10_state.md R48). -/
def FaultRecord.clear : FaultRecord := { code := none, pc := 0, word := 0, addr := 0 }

/-- The framebuffer: `fb[y][x]` is the pixel in row `y`, column `x` (10_state.md R43). -/
abbrev Framebuffer := Vector (Vector Bool 64) 32

/-- Every pixel unset. -/
def Framebuffer.clear : Framebuffer := Vector.replicate 32 (Vector.replicate 64 false)

/-- The memory `M` (10_state.md R44): the cells that differ from the reset contents, as (address, byte) pairs in
strictly rising order of address. What an unlisted address reads as is `Memory.initial` (Sys2Proof/Machine/Ops.lean). -/
abbrev Memory := List Host.Cell

/-- One event from outside the core: the four host operations of 00_scope.md R7, and a write of the input collaborator
to one slot of the Input Latch (10_state.md R45, 20_memory.md R85). -/
inductive HostEvent
  | reset
  | load (bytes : List Byte)
  | cycle
  | tick
  | keyWrite (k : Nibble) (down : Bool)
  deriving DecidableEq, Repr

/-- What `load` returns (70_reset_and_hazards.md R356). -/
inductive LoadResult
  | ok
  | sizeExceeded
  deriving DecidableEq, Repr

/-- The MODEL's own fields: the inputs still to come and the outputs given, none of them a register of the block.
`script`: the events to come, oldest first (log entry 2). `draws`: how many random bytes have been drawn (log entry 3).
`loadAdmitted`: whether `load` is still admitted (R357, log entry 5). `loadResult`: what the last `load` returned (log
entry 6). -/
structure HostSide where
  script       : List HostEvent
  draws        : Nat
  loadAdmitted : Bool
  loadResult   : Option LoadResult
  deriving DecidableEq, Repr

/-- The state of the block, and beside it the Input Latch `keys` (10_state.md R45) and the model's own `host`. -/
structure State where
  /-- V0 to VF (R30); VF is also the flag register (R32). -/
  v      : Vector Byte 16
  /-- The index register `I` (R33). -/
  i      : Word
  /-- `PC` (R34). -/
  pc     : Word
  /-- `SP`, the number of entries on the Call Stack, 0 to 16 (R37). -/
  sp     : Fin 17
  /-- `S[0]` to `S[15]` (R38). -/
  stack  : Vector Word 16
  /-- The delay timer (R39). -/
  dt     : Byte
  /-- The sound timer (R39). -/
  st     : Byte
  /-- `E` (R40). -/
  engine : Engine
  /-- `FR` (R41). -/
  fr     : FaultRecord
  /-- `W`, the register a key wait will write (R42). -/
  w      : Nibble
  /-- `FB` (R43). -/
  fb     : Framebuffer
  /-- `M` (R44). -/
  mem    : Memory
  /-- `K`: bit `k` is 1 when key `k` is down (R45). -/
  keys   : Word
  /-- The model's own fields. -/
  host   : HostSide
  deriving DecidableEq, Repr

/-- Reasons for which a step could stop with no next state. There is NONE: every fault of the spec halts the engine and
is a next state (60_exceptions.md R311), and a halted engine's cycle is a next state too (40_execution_cycle.md R141). -/
inductive Fault
  deriving DecidableEq, Repr

/-- Reasons for which a step has no meaning. -/
inductive Refusal
  /-- Raised by an arm of `exec` for an instruction that has no meaning yet: by none in this model. Safe. -/
  | notModelled (mnemonic : String)
  /-- Raised by the host call `load` outside its window: "A model refuses `load` at any other time"
  (70_reset_and_hazards.md R357). Safe: the run stops. -/
  | loadNotAdmitted
  deriving DecidableEq, Repr

/-- The machine right after `reset()` (70_reset_and_hazards.md R350, 10_state.md R48): everything zero or empty but
`PC = 0x200`, memory at its reset contents (nothing listed). `keys` has no reset value in the spec (log entry 1). -/
def State.reset : State where
  v      := Vector.replicate 16 0
  i      := 0
  pc     := 0x200
  sp     := 0
  stack  := Vector.replicate 16 0
  dt     := 0
  st     := 0
  engine := .running
  fr     := .clear
  w      := 0
  fb     := .clear
  mem    := []
  keys   := 0
  host   := { script := [], draws := 0, loadAdmitted := true, loadResult := none }

end Sys2Proof.Machine
end

