-- ==== Sys2Proof/Machine/Ops.lean ====
section
/-! DEFINITION. The named operations over memory, registers, stack and framebuffer, and taking a fault. -/

namespace Sys2Proof.Machine

/-! ### Memory (spec/20_memory.md) -/

/-- The 16 hexadecimal glyphs, five bytes each (20_memory.md R80). -/
def fontGlyphs : List (List Byte) :=
  [[0xF0, 0x90, 0x90, 0x90, 0xF0], [0x20, 0x60, 0x20, 0x20, 0x70],
   [0xF0, 0x10, 0xF0, 0x80, 0xF0], [0xF0, 0x10, 0xF0, 0x10, 0xF0]]
  ++ [[0x90, 0x90, 0xF0, 0x10, 0x10], [0xF0, 0x80, 0xF0, 0x10, 0xF0],
   [0xF0, 0x80, 0xF0, 0x90, 0xF0], [0xF0, 0x10, 0x20, 0x40, 0x40]]
  ++ [[0xF0, 0x90, 0xF0, 0x90, 0xF0], [0xF0, 0x90, 0xF0, 0x10, 0xF0],
   [0xF0, 0x90, 0xF0, 0x90, 0x90], [0xE0, 0x90, 0xE0, 0x90, 0xE0]]
  ++ [[0xF0, 0x80, 0x80, 0x80, 0xF0], [0xE0, 0x90, 0x90, 0x90, 0xE0],
   [0xF0, 0x80, 0xF0, 0x80, 0xF0], [0xF0, 0x80, 0xF0, 0x80, 0x80]]

/-- Byte `r` of the glyph of digit `d` (R80). -/
def glyphByte (d r : Nat) : Byte := (fontGlyphs.getD d []).getD r 0

/-- The address is one of the 80 bytes `FONT_BASE` to `FONT_BASE + 79` (R80). -/
def inFont (a : Nat) : Bool := hardware.fontBase ≤ a && a < hardware.fontBase + 80

/-- What an address that nothing has written reads as: the reset contents of memory, the glyphs in the font region and 0
elsewhere (70_reset_and_hazards.md R350, R351; 20_memory.md R80). -/
def Memory.initial (a : Nat) : Byte :=
  if inFont a then glyphByte ((a - hardware.fontBase) / 5) ((a - hardware.fontBase) % 5) else 0

/-- The byte at an address (R73; the range check is made by whoever accesses, R75). -/
def Memory.read : Memory → Nat → Byte
  | [], a => Memory.initial a
  | c :: m, a => if c.1 = a then c.2 else Memory.read m a

/-- Puts a cell in its place in the rising order. -/
def Memory.insertCell (a : Nat) (b : Byte) : Memory → Memory
  | [] => [(a, b)]
  | c :: m => if a < c.1 then (a, b) :: c :: m else c :: Memory.insertCell a b m

/-- Takes away every cell of an address. -/
def Memory.dropCell (a : Nat) : Memory → Memory
  | [] => []
  | c :: m => if c.1 = a then Memory.dropCell a m else c :: Memory.dropCell a m

/-- Writes one byte (R74; the range and font checks are made by whoever accesses, R75), keeping the canonical form. -/
def Memory.write (m : Memory) (a : Nat) (b : Byte) : Memory :=
  if b = Memory.initial a then Memory.dropCell a m else Memory.insertCell a b (Memory.dropCell a m)

/-- Writes bytes at consecutive addresses, lowest first (R75). -/
def Memory.writeList (m : Memory) (a : Nat) : List Byte → Memory
  | [] => m
  | b :: bs => Memory.writeList (Memory.write m a b) (a + 1) bs

/-- Strictly rising from `lo`, inside the address space, and no entry equal to the reset contents of its address. -/
def Memory.wfFrom (lo : Nat) : Memory → Bool
  | [] => true
  | c :: m => decide (lo ≤ c.1) && decide (c.1 < memSize) && decide (c.2 ≠ Memory.initial c.1) && Memory.wfFrom (c.1 + 1) m

/-- The canonical form of memory. -/
def Memory.wf (m : Memory) : Bool := Memory.wfFrom 0 m

/-- The byte a state holds at an address. -/
def State.byteAt (s : State) (a : Nat) : Byte := Memory.read s.mem a

/-- Where a transfer of `n` bytes at `base` first leaves memory, if it does: the least address above 0xFFF (R72, R75). -/
def firstOutOfRange (base n : Nat) : Option Nat :=
  ((List.range n).map (base + ·)).find? (fun a => decide (0xFFF < a))

/-- The least address of the font region a transfer of `n` bytes at `base` touches, if any (R74, R75). -/
def firstInFont (base n : Nat) : Option Nat :=
  ((List.range n).map (base + ·)).find? inFont

/-- The fault of reading `n` bytes at `base`: the range check alone (R73, R75). -/
def loadFault (base n : Nat) : Option (FaultCode × Nat) :=
  (firstOutOfRange base n).map fun a => (.memOutOfRange, a)

/-- The fault of writing `n` bytes at `base`: the range over all addresses, then the font over all addresses (R74, R75). -/
def storeFault (base n : Nat) : Option (FaultCode × Nat) :=
  match firstOutOfRange base n with
  | some a => some (.memOutOfRange, a)
  | none => (firstInFont base n).map fun a => (.fontWrite, a)

/-! ### Registers and the program counter -/

/-- `V[x]` (10_state.md R30). -/
def State.reg (s : State) (x : Nibble) : Byte := s.v[x.toNat]'x.isLt

/-- `V[x] <- b` (R30). -/
def State.setReg (s : State) (x : Nibble) (b : Byte) : State := { s with v := s.v.set x.toNat b x.isLt }

/-- `V[x] <- b`, and then the flag in VF as the last write (R32). -/
def State.setRegFlag (s : State) (x : Nibble) (b flag : Byte) : State := (s.setReg x b).setReg 0xF#4 flag

/-- `V[k] <- bytes[k - from]` for the registers from `k` on, in rising order (43_index_memory.md R228). -/
def State.setRegs (s : State) (k : Nat) : List Byte → State
  | [] => s
  | b :: bs => State.setRegs (s.setReg (BitVec.ofNat 4 k) b) (k + 1) bs

/-- `I <- a` (10_state.md R33). -/
def State.setI (s : State) (a : Word) : State := { s with i := a }

/-- `PC <- target`, unchecked (45_control_transfer.md R270). -/
def State.jump (s : State) (target : Word) : State := { s with pc := target }

/-- `PC <- a + 2` (40_execution_cycle.md R144). -/
def State.advance (s : State) : State := { s with pc := s.pc + 2 }

/-- `PC <- a + 4` when the condition holds, else `a + 2` (42_compare_skip.md R200). -/
def State.skipIf (s : State) (c : Bool) : State := { s with pc := if c then s.pc + 4 else s.pc + 2 }

/-- `DT <- b` (10_state.md R39). -/
def State.setDt (s : State) (b : Byte) : State := { s with dt := b }

/-- `ST <- b` (10_state.md R39). -/
def State.setSt (s : State) (b : Byte) : State := { s with st := b }

/-- Memory replaced. -/
def State.setMem (s : State) (m : Memory) : State := { s with mem := m }

/-- The framebuffer replaced. -/
def State.setFb (s : State) (f : Framebuffer) : State := { s with fb := f }

/-- One more random byte drawn (44_display_random.md R250). -/
def State.countDraw (s : State) : State := { s with host := { s.host with draws := s.host.draws + 1 } }

/-! ### Taking a fault -/

/-- `raise Fault(code, info)` in a cycle that fetched from `a = PC` (60_exceptions.md R311): the engine halts and `FR`
records the code, the address of the instruction, its word (0 when the fetch itself faulted) and the offending address (0
where there is none). Applied to the state BEFORE the instruction, so nothing else is written (R315). There is no handler
and no return (R314, R316); only `reset()` leaves the halted state. -/
def raise (s : State) (code : FaultCode) (word : Word) (addr : Nat) : State :=
  { s with
    engine := .haltedOnFault
    fr := { code := some code, pc := s.pc, word := word, addr := BitVec.ofNat 16 addr } }

/-- The spec's number of a fault code (60_exceptions.md R310). -/
def FaultCode.number : FaultCode → Nat
  | .memOutOfRange => 1
  | .stackOverflow => 2
  | .stackUnderflow => 3
  | .unknownInstruction => 4
  | .pcMisaligned => 5
  | .fontWrite => 6

/-- The number in `FR.code`; 0 is None (R310). -/
def FaultRecord.number (f : FaultRecord) : Nat := (f.code.map FaultCode.number).getD 0

/-! ### The stack controller (10_state.md R35, R36) -/

/-- `Push(v)`: none is the stack-overflow fault (R35). -/
def State.push (s : State) (v : Word) : Option State :=
  if h : s.sp.val < 16 then
    some { s with stack := s.stack.set s.sp.val v h, sp := ⟨s.sp.val + 1, by omega⟩ }
  else none

/-- `Pop()`: the state after it and the popped entry, which stays in its slot (R36, R38); none is the stack-underflow
fault. -/
def State.pop (s : State) : Option (State × Word) :=
  if h : 0 < s.sp.val then
    some ({ s with sp := ⟨s.sp.val - 1, by omega⟩ }, s.stack[s.sp.val - 1]'(by omega))
  else none

/-! ### Memory transfers (43_index_memory.md R224) -/

/-- The instruction stores `bytes` at `I` upwards and leaves `newI` in `I`: either every address passes its checks and
all bytes are written, or the instruction faults and nothing is (20_memory.md R75). `FR.word` is the instruction's own
word, which is its encoding (log entry 10). -/
def storeAtI (i : Instr) (bytes : List Byte) (newI : Word) (s : State) : State :=
  match storeFault s.i.toNat bytes.length with
  | some (code, addr) => raise s code (encode i) addr
  | none => ((s.setMem (Memory.writeList s.mem s.i.toNat bytes)).setI newI).advance

/-- `n` bytes read at `I` upwards. -/
def bytesAtI (n : Nat) (s : State) : List Byte := (List.range n).map fun k => s.byteAt (s.i.toNat + k)

/-! ### The framebuffer writer (44_display_random.md R253) -/

/-- A pixel's place on the grid. -/
structure Pixel where
  row : Fin 32
  col : Fin 64
  deriving DecidableEq, Repr

/-- `FB[p.row][p.col]`. -/
def Framebuffer.get (f : Framebuffer) (p : Pixel) : Bool := f[p.row.val][p.col.val]

/-- `FB[p.row][p.col] <- FB[p.row][p.col] ^ 1`. -/
def Framebuffer.toggle (f : Framebuffer) (p : Pixel) : Framebuffer :=
  f.set p.row.val (f[p.row.val].set p.col.val (!f.get p))

/-- Where column `c` of row `r` of a sprite started at `(x0, y0)` lands: both coordinates wrap (R253). -/
def spritePlace (x0 y0 : Byte) (r c : Nat) : Pixel :=
  { row := Fin.ofNat 32 (y0.toNat + r), col := Fin.ofNat 64 (x0.toNat + c) }

/-- The pixels of row `r` whose sprite bit is 1, left to right; bit 7 is the leftmost (R253). -/
def rowPixels (x0 y0 : Byte) (row : Byte) (r : Nat) : List Pixel :=
  ((List.range 8).filter fun c => row.getLsbD (7 - c)).map (spritePlace x0 y0 r)

/-- The pixels of a sprite whose bit is 1, in the order R253 draws them; `r` is the number of the first row of the list. -/
def spritePixels (x0 y0 : Byte) (r : Nat) : List Byte → List Pixel
  | [] => []
  | row :: rows => rowPixels x0 y0 row r ++ spritePixels x0 y0 (r + 1) rows

/-- Draws the pixels one after another: each is toggled, and one that was set is a collision (R253). The answer is the
framebuffer after it and whether any pixel collided. -/
def drawPixels : List Pixel → Framebuffer → Framebuffer × Bool
  | [], f => (f, false)
  | p :: ps, f =>
    let rest := drawPixels ps (f.toggle p)
    (rest.1, f.get p || rest.2)

/-- 1 or 0, as a flag is written to VF (10_state.md R32). -/
def flagByte (b : Bool) : Byte := if b then 1 else 0

/-! ### Placing an instruction -/

/-- The bytes of a word stored at an address, high byte first. -/
def Memory.writeWord (m : Memory) (a : Nat) (w : Word) : Memory := Memory.writeList m a [highByte w, lowByte w]

end Sys2Proof.Machine
end

