-- ==== Sys2Proof/Machine/Flags.lean ====
section
/-! DEFINITION. The ALU's results and flags (spec/41_alu.md R170, R171): exact arithmetic on naturals, narrowed to 8 bits
at the end. Every flag is a byte 1 or 0, written to VF as the instruction's last write. -/

namespace Sys2Proof.Machine

/-- `trunc_8` (00_scope.md R9; 41_alu.md R170). -/
def trunc8 (n : Nat) : Byte := BitVec.ofNat 8 n

/-- `p + q`, wrapped to 8 bits (R174, R179). -/
def addResult (p q : Byte) : Byte := trunc8 (p.toNat + q.toNat)

/-- `p - q`, wrapped to 8 bits: `trunc_8(p - q + 0x100)` (R180, R182). -/
def subResult (p q : Byte) : Byte := trunc8 (p.toNat + 0x100 - q.toNat)

/-- `p >> 1` (R181). -/
def shrResult (p : Byte) : Byte := trunc8 (p.toNat / 2)

/-- `trunc_8(p << 1)` (R183). -/
def shlResult (p : Byte) : Byte := trunc8 (p.toNat * 2)

/-- Carry of `p + q`: 1 when the sum is above 0xFF (R171). -/
def carryFlag (p q : Byte) : Byte := flagByte (decide (0xFF < p.toNat + q.toNat))

/-- No-borrow of `p - q`: 1 when `p ≥ q` (R171). -/
def noBorrowFlag (p q : Byte) : Byte := flagByte (decide (q.toNat ≤ p.toNat))

/-- The bit a right shift by one shifts out: `p[0]` (R171). -/
def shrFlag (p : Byte) : Byte := flagByte (p.getLsbD 0)

/-- The bit a left shift by one shifts out: `p[7]` (R171). -/
def shlFlag (p : Byte) : Byte := flagByte (p.getLsbD 7)

/-- What a logic instruction leaves in VF after its result (R176 to R178): at QUIRK_LOGIC_VF = `unchanged` nothing is
written, at `reset` VF becomes 0. -/
def applyLogicFlag (q : LogicFlag) (s : State) : State :=
  match q with
  | .unchanged => s
  | .reset => s.setReg 0xF#4 0

end Sys2Proof.Machine
end

