-- ==== Sys2Proof/Machine/Operands.lean ====
section
/-! DEFINITION. The operand forms (spec/30_encoding.md R103; spec/43_index_memory.md R220): registers directly, immediates
zero-extended, the low nibble of a register, and the operands that depend on a quirk parameter. -/

namespace Sys2Proof.Machine

/-- `zext_16(nnn)` (R103). -/
def zext16 (nnn : Addr12) : Word := nnn.setWidth 16

/-- `V[x][3:0]`: the digit of FX29 and the key of EX9E and EXA1 (43_index_memory.md R223, 46_timers_keys.md R296). -/
def lowNibble (b : Byte) : Nibble := b.extractLsb' 0 4

/-- The value 8XY6 and 8XYE shift (41_alu.md R181, R183). -/
def shiftOperand (q : ShiftSource) (x y : Nibble) (s : State) : Byte :=
  match q with
  | .vx => s.reg x
  | .vy => s.reg y

/-- The offset BNNN adds (45_control_transfer.md R274); at the alternative setting the register is `nnn[11:8]`. -/
def jumpOffset (q : JumpRegister) (nnn : Addr12) (s : State) : Byte :=
  match q with
  | .v0 => s.reg 0
  | .vx => s.reg (nnn.extractLsb' 8 4)

/-- `I` after a register store or load up to `x` (43_index_memory.md R227, R228). -/
def indexAfter (q : LoadStoreIndex) (x : Nibble) (i : Word) : Word :=
  match q with
  | .unchanged => i
  | .increment => i + BitVec.ofNat 16 (x.toNat + 1)

/-- The key is down in the latch (10_state.md R45). -/
def keyDown (keys : Word) (k : Nibble) : Bool := keys.getLsbD k.toNat

/-- The least key that is down, if any (40_execution_cycle.md R143, D16). -/
def leastKey (keys : Word) : Option Nibble :=
  ((List.range 16).find? fun k => keys.getLsbD k).map (BitVec.ofNat 4)

/-- The BCD digits of a byte, hundreds first (43_index_memory.md R225, R226). -/
def bcdDigits (v : Byte) : List Byte :=
  [BitVec.ofNat 8 (v.toNat / 100), BitVec.ofNat 8 (v.toNat / 10 % 10), BitVec.ofNat 8 (v.toNat % 10)]

/-- `V[0]` to `V[x]`, in that order (R227). -/
def regsUpTo (x : Nibble) (s : State) : List Byte :=
  (List.range (x.toNat + 1)).map fun k => s.reg (BitVec.ofNat 4 k)

end Sys2Proof.Machine
end

