-- ==== Sys2Proof/Machine/Alu.lean ====
section
/-! DEFINITION. The arithmetic and bitwise instructions (spec/41_alu.md). All operands are read before any write
(00_scope.md R12); a flag is the last write (10_state.md R32). -/

namespace Sys2Proof.Machine

/-- 6XNN (R173). -/
def execLdImm (x : Nibble) (kk : Byte) (s : State) : Host.Outcome State Fault Refusal :=
  .next (s.setReg x kk).advance

/-- 7XNN: no flag, even on overflow (R174). -/
def execAddImm (x : Nibble) (kk : Byte) (s : State) : Host.Outcome State Fault Refusal :=
  .next (s.setReg x (addResult (s.reg x) kk)).advance

/-- 8XY0 (R175). -/
def execLdReg (x y : Nibble) (s : State) : Host.Outcome State Fault Refusal :=
  .next (s.setReg x (s.reg y)).advance

/-- 8XY1 (R176). -/
def execOrReg (x y : Nibble) (s : State) : Host.Outcome State Fault Refusal :=
  .next (applyLogicFlag hardware.logicFlag (s.setReg x (s.reg x ||| s.reg y))).advance

/-- 8XY2 (R177). -/
def execAndReg (x y : Nibble) (s : State) : Host.Outcome State Fault Refusal :=
  .next (applyLogicFlag hardware.logicFlag (s.setReg x (s.reg x &&& s.reg y))).advance

/-- 8XY3 (R178). -/
def execXorReg (x y : Nibble) (s : State) : Host.Outcome State Fault Refusal :=
  .next (applyLogicFlag hardware.logicFlag (s.setReg x (s.reg x ^^^ s.reg y))).advance

/-- 8XY4: VF = carry (R179). -/
def execAddReg (x y : Nibble) (s : State) : Host.Outcome State Fault Refusal :=
  .next (s.setRegFlag x (addResult (s.reg x) (s.reg y)) (carryFlag (s.reg x) (s.reg y))).advance

/-- 8XY5: VF = no-borrow (R180). -/
def execSubReg (x y : Nibble) (s : State) : Host.Outcome State Fault Refusal :=
  .next (s.setRegFlag x (subResult (s.reg x) (s.reg y)) (noBorrowFlag (s.reg x) (s.reg y))).advance

/-- 8XY6: VF = the bit shifted out, `p[0]` (R181). -/
def execShr (x y : Nibble) (s : State) : Host.Outcome State Fault Refusal :=
  let p := shiftOperand hardware.shiftSource x y s
  .next (s.setRegFlag x (shrResult p) (shrFlag p)).advance

/-- 8XY7: the reversed subtraction (R182). -/
def execSubnReg (x y : Nibble) (s : State) : Host.Outcome State Fault Refusal :=
  .next (s.setRegFlag x (subResult (s.reg y) (s.reg x)) (noBorrowFlag (s.reg y) (s.reg x))).advance

/-- 8XYE: VF = the bit shifted out, `p[7]` (R183). -/
def execShl (x y : Nibble) (s : State) : Host.Outcome State Fault Refusal :=
  let p := shiftOperand hardware.shiftSource x y s
  .next (s.setRegFlag x (shlResult p) (shlFlag p)).advance

end Sys2Proof.Machine
end

