-- ==== Sys2Proof/Machine/Control.lean ====
section
/-! DEFINITION. Jumps, calls and returns (spec/45_control_transfer.md). Targets are absolute and unchecked (R270). -/

namespace Sys2Proof.Machine

/-- 1NNN (R271). -/
def execJp (nnn : Addr12) (s : State) : Host.Outcome State Fault Refusal :=
  .next (s.jump (zext16 nnn))

/-- 2NNN: pushes `a + 2`; a full stack is the fault StackOverflow (R272). -/
def execCall (nnn : Addr12) (s : State) : Host.Outcome State Fault Refusal :=
  match s.push (s.pc + 2) with
  | some t => .next (t.jump (zext16 nnn))
  | none => .next (raise s .stackOverflow (encode (.call nnn)) 0)

/-- 00EE: an empty stack is the fault StackUnderflow (R273). -/
def execRet (s : State) : Host.Outcome State Fault Refusal :=
  match s.pop with
  | some (t, target) => .next (t.jump target)
  | none => .next (raise s .stackUnderflow (encode .ret) 0)

/-- BNNN: the sum is not reduced modulo 4096 (R274). -/
def execJpV0 (nnn : Addr12) (s : State) : Host.Outcome State Fault Refusal :=
  .next (s.jump (BitVec.ofNat 16 ((zext16 nnn).toNat + (jumpOffset hardware.jumpRegister nnn s).toNat)))

end Sys2Proof.Machine
end

