-- ==== Sys2Proof/Machine/Display.lean ====
section
/-! DEFINITION. Random, clear screen and sprite draw (spec/44_display_random.md). -/

namespace Sys2Proof.Machine

/-- CXNN: a free byte, masked (R250, R251; log entry 3). -/
def execRnd (x : Nibble) (kk : Byte) (s : State) : Host.Outcome State Fault Refusal :=
  .next ((s.setReg x (Config.randByte s.host.draws &&& kk)).countDraw).advance

/-- 00E0 (R252). -/
def execCls (s : State) : Host.Outcome State Fault Refusal :=
  .next (s.setFb Framebuffer.clear).advance

/-- DXYN: every address checked first, the sprite drawn with XOR and wraparound, VF = collision as the last write (R253). -/
def execDrw (x y n : Nibble) (s : State) : Host.Outcome State Fault Refusal :=
  match loadFault s.i.toNat n.toNat with
  | some (code, addr) => .next (raise s code (encode (.drw x y n)) addr)
  | none =>
    let drawn := drawPixels (spritePixels (s.reg x) (s.reg y) 0 (bytesAtI n.toNat s)) s.fb
    .next ((s.setFb drawn.1).setReg 0xF#4 (flagByte drawn.2)).advance

end Sys2Proof.Machine
end

