-- ==== Sys2Proof/Machine/IndexMemory.lean ====
section
/-! DEFINITION. The index register, BCD and memory load/store (spec/43_index_memory.md). -/

namespace Sys2Proof.Machine

/-- ANNN (R221). -/
def execLdI (nnn : Addr12) (s : State) : Host.Outcome State Fault Refusal :=
  .next (s.setI (zext16 nnn)).advance

/-- FX1E: wraps at 16 bits, writes no flag (R222). -/
def execAddIVx (x : Nibble) (s : State) : Host.Outcome State Fault Refusal :=
  .next (s.setI (BitVec.ofNat 16 (s.i.toNat + (s.reg x).toNat))).advance

/-- FX29: the address of the glyph of the low nibble (R223). -/
def execLdFVx (x : Nibble) (s : State) : Host.Outcome State Fault Refusal :=
  .next (s.setI (BitVec.ofNat 16 (hardware.fontBase + 5 * (lowNibble (s.reg x)).toNat))).advance

/-- FX33: the BCD digits of V[x] at I, I+1, I+2; I is unchanged (R226). -/
def execLdBVx (x : Nibble) (s : State) : Host.Outcome State Fault Refusal :=
  .next (storeAtI (.ldBVx x) (bcdDigits (s.reg x)) s.i s)

/-- FX55: V[0] to V[x] at I upwards (R227). -/
def execStoreRegs (x : Nibble) (s : State) : Host.Outcome State Fault Refusal :=
  .next (storeAtI (.storeRegs x) (regsUpTo x s) (indexAfter hardware.loadStoreIndex x s.i) s)

/-- FX65: V[0] to V[x] from I upwards; VF is loaded as an ordinary register (R228). -/
def execLoadRegs (x : Nibble) (s : State) : Host.Outcome State Fault Refusal :=
  match loadFault s.i.toNat (x.toNat + 1) with
  | some (code, addr) => .next (raise s code (encode (.loadRegs x)) addr)
  | none => .next ((s.setRegs 0 (bytesAtI (x.toNat + 1) s)).setI (indexAfter hardware.loadStoreIndex x s.i)).advance

end Sys2Proof.Machine
end

