-- ==== Sys2Proof/Machine/TimersKeys.lean ====
section
/-! DEFINITION. Timer get and set, key test and key wait (spec/46_timers_keys.md). -/

namespace Sys2Proof.Machine

/-- FX07 (R290). -/
def execLdVxDt (x : Nibble) (s : State) : Host.Outcome State Fault Refusal :=
  .next (s.setReg x s.dt).advance

/-- FX15 (R291). -/
def execLdDtVx (x : Nibble) (s : State) : Host.Outcome State Fault Refusal :=
  .next (s.setDt (s.reg x)).advance

/-- FX18 (R292). -/
def execLdStVx (x : Nibble) (s : State) : Host.Outcome State Fault Refusal :=
  .next (s.setSt (s.reg x)).advance

/-- EX9E: skip when key V[x][3:0] is down (R293, R296). -/
def execSkp (x : Nibble) (s : State) : Host.Outcome State Fault Refusal :=
  .next (s.skipIf (keyDown s.keys (lowNibble (s.reg x))))

/-- EXA1: skip when key V[x][3:0] is not down (R294, R296). -/
def execSknp (x : Nibble) (s : State) : Host.Outcome State Fault Refusal :=
  .next (s.skipIf (!keyDown s.keys (lowNibble (s.reg x))))

/-- FX0A: enters the wait, always; PC stays at the FX0A and the poll advances it (R295, R143). -/
def execLdVxK (x : Nibble) (s : State) : Host.Outcome State Fault Refusal :=
  .next { s with w := x, engine := .waitingForKey }

end Sys2Proof.Machine
end

