-- ==== Sys2Proof/Machine/Cycle.lean ====
section
/-! DEFINITION. One host call: the execution cycle, the key poll, the timer tick (spec/40_execution_cycle.md), reset and ROM load
(spec/70_reset_and_hazards.md), and the collaborator's writes to the Input Latch (spec/10_state.md R45). -/

namespace Sys2Proof.Machine

/-! ### Fetch (20_memory.md R77) -/

/-- The fault of a fetch at `a`: the range check first, then the alignment check (R77, R313). -/
def fetchFault (a : Word) : Option (FaultCode × Nat) :=
  if 0xFFF < a.toNat + 1 then some (.memOutOfRange, if 0xFFF < a.toNat then a.toNat else a.toNat + 1)
  else if a.getLsbD 0 then some (.pcMisaligned, a.toNat)
  else none

/-- The word at `PC`: `M[a] ++ M[a+1]`. -/
def fetchWord (s : State) : Word := wordOfBytes (s.byteAt s.pc.toNat) (s.byteAt (s.pc.toNat + 1))

/-! ### The cycle (40_execution_cycle.md R140) -/

/-- The poll of a key wait: with no key down nothing changes; else the least key's index goes to `V[W]`, `PC` advances
past the FX0A and the engine runs again. No instruction executes in this cycle (R143). -/
def poll (s : State) : State :=
  match leastKey s.keys with
  | none => s
  | some k => { (s.setReg s.w (k.setWidth 8)).advance with engine := .running }

/-- What a word that no row matches does: the fault UnknownInstruction (30_encoding.md R106). At the alternative
SYS_POLICY a word 0NNN would only advance `PC` (45_control_transfer.md R275). -/
def unknownEffect (q : SysPolicy) (w : Word) (s : State) : State :=
  match q with
  | .fault => raise s .unknownInstruction w 0
  | .noOp => if opField w = 0 then s.advance else raise s .unknownInstruction w 0

/-- Fetch, decode and execute one instruction (R142). -/
def runInstruction (s : State) : Host.Outcome State Fault Refusal :=
  match fetchFault s.pc with
  | some (code, addr) => .next (raise s code 0 addr)
  | none =>
    match decode (fetchWord s) with
    | .known i => exec i s
    | .unknown w => .next (unknownEffect hardware.sysPolicy w s)

/-- One `cycle()`, by the engine state (R140, R141, R142, R143). -/
def cycle (s : State) : Host.Outcome State Fault Refusal :=
  match s.engine with
  | .haltedOnFault => .next s
  | .waitingForKey => .next (poll s)
  | .running => runInstruction s

/-! ### The other calls -/

/-- A timer counts down by one and stops at 0 (R155). -/
def countDown (b : Byte) : Byte := if b = 0 then 0 else b - 1

/-- One `tick()`: both timers, independently; nothing in the halted state (R155, R156). -/
def tick (s : State) : State :=
  match s.engine with
  | .haltedOnFault => s
  | _ => { s with dt := countDown s.dt, st := countDown s.st }

/-- One `reset()`: every element to its reset value (70_reset_and_hazards.md R350); the latch is not touched (R353), nor
what the host still has to do, nor the count of random bytes drawn (log entry 3). -/
def resetCall (s : State) : State :=
  { State.reset with keys := s.keys, host := { State.reset.host with script := s.host.script, draws := s.host.draws } }

/-- No more `load` until the next `reset()` (R357, log entry 5). -/
def closeLoad (s : State) : State := { s with host := { s.host with loadAdmitted := false } }

/-- One `load(bytes)` (R356): more than 3584 bytes write nothing and answer SizeExceeded; else the image is copied to
0x200 upwards, directly and not through the store checks. Outside its window it is refused (R357). -/
def loadCall (bytes : List Byte) (s : State) : Host.Outcome State Fault Refusal :=
  if s.host.loadAdmitted then
    if romMax < bytes.length then
      .next { s with host := { s.host with loadAdmitted := false, loadResult := some .sizeExceeded } }
    else
      .next { s with
        mem := Memory.writeList s.mem programStart bytes
        host := { s.host with loadAdmitted := false, loadResult := some .ok } }
  else .refused .loadNotAdmitted

/-- The collaborator writes one slot of the latch (10_state.md R45, 20_memory.md R85). -/
def keyWrite (k : Nibble) (down : Bool) (s : State) : State :=
  { s with keys :=
      if down then s.keys ||| (1#16 <<< k.toNat) else s.keys &&& ~~~(1#16 <<< k.toNat) }

/-- One event (00_scope.md R7). Each is atomic (40_execution_cycle.md R146, R157). -/
def perform (e : HostEvent) (s : State) : Host.Outcome State Fault Refusal :=
  match e with
  | .reset => .next (resetCall s)
  | .load bytes => loadCall bytes s
  | .cycle => cycle (closeLoad s)
  | .tick => .next (tick s)
  | .keyWrite k down => .next (keyWrite k down s)

/-- The event the next step performs: the first of the script, or a `cycle()` when the script is empty (log entry 2). -/
def nextEvent (s : State) : HostEvent := s.host.script.headD .cycle

/-- The state with that event taken off the script. -/
def takeEvent (s : State) : State := { s with host := { s.host with script := s.host.script.tail } }

/-! ### The ports (00_scope.md R7) -/

/-- What the collaborators and the host can read of the block. -/
structure Ports where
  fb    : Framebuffer
  st    : Byte
  state : Engine
  fault : FaultRecord
  deriving DecidableEq, Repr

/-- The observation ports; reading them changes nothing. -/
def ports (s : State) : Ports := { fb := s.fb, st := s.st, state := s.engine, fault := s.fr }

/-! ### Placing an instruction where the next step fetches it (log entry 11) -/

/-- An address a fetch accepts: even and at most 0xFFE (20_memory.md R77). -/
def fetchable (a : Word) : Bool := (fetchFault a).isNone

/-- The state with an instruction's word stored at `PC`, and whatever else the very next step needs to run it: the engine
running, the next event a `cycle()`, and `PC` an address a fetch accepts (0x200 where it is not one). -/
def placeInstruction (w : Word) (s : State) : State :=
  let a : Word := if fetchable s.pc then s.pc else BitVec.ofNat 16 programStart
  let script := if nextEvent s = .cycle then s.host.script else .cycle :: s.host.script
  { s with
    pc := a
    engine := .running
    mem := Memory.writeWord s.mem a.toNat w
    host := { s.host with script := script } }

end Sys2Proof.Machine
end

