-- ==== Sys2Proof/Machine/Step.lean ====
section
/-! DEFINITION. One step of the machine: the next event from outside, performed whole (spec/00_scope.md R7,
spec/40_execution_cycle.md R157). -/

namespace Sys2Proof.Machine

/-- One step: the next host call, or latch write, of the script; with the script empty, one `cycle()` (log entry 2). -/
def step (s : State) : Host.Outcome State Fault Refusal := perform (nextEvent s) (takeEvent s)

/-- The state in which the next step fetches and runs the instruction whose bits are `w` (one word, high byte first). -/
def State.withFetchWord (s : State) (nbits w : Nat) : State :=
  placeInstruction (BitVec.ofNat 16 (w % 2 ^ nbits)) s

end Sys2Proof.Machine
end

