-- ==== Sys2Proof/Safety.lean ====
section
/-! DEFINITION. What counts as a safe run, the end of a run, and the invariant of the reachable states, in the terms the
statements use. -/

namespace Sys2Proof.Machine

/-- A state is safe when no fault has halted the engine (spec/60_exceptions.md R310, R316). -/
def Safe (s : State) : Prop := s.engine ≠ .haltedOnFault

/-- `n` steps run and every state on the way is safe. -/
def SafeRun (n : Nat) (s : State) : Prop :=
  ∀ k, k ≤ n → ∃ t, Sys2Proof.core.run k s = .next t ∧ Safe t

/-- The end of a program's run, at the address `a`: the engine runs and `PC` is at a jump to itself. The block keeps
executing that jump and keeps accepting ticks; there is no architectural halt (spec/70_reset_and_hazards.md R365, D29). -/
def AtSelfJump (a : Word) (s : State) : Prop :=
  s.engine = .running ∧ s.pc = a ∧ fetchable a = true ∧
    decode (fetchWord s) = .known (.jp (a.setWidth 12))

/-- The font region holds its glyphs (spec/20_memory.md R80; 70_reset_and_hazards.md R351). -/
def FontIntact (s : State) : Prop := ∀ a, inFont a = true → s.byteAt a = Memory.initial a

/-- An entry a CALL pushes: the address after an instruction that was fetched (spec/45_control_transfer.md R272, R273). -/
def ReturnAddress (v : Word) : Prop := v.toNat % 2 = 0 ∧ 2 ≤ v.toNat ∧ v.toNat ≤ 0x1000

/-- What holds in every state a run reaches. -/
structure Inv (s : State) : Prop where
  /-- Memory is in its canonical form, and so inside the address space (20_memory.md R70). -/
  memory  : Memory.wf s.mem = true
  /-- The font region is never mutated (20_memory.md R74). -/
  font    : FontIntact s
  /-- The engine is halted exactly when a fault is recorded (60_exceptions.md R311). -/
  halted  : s.engine = .haltedOnFault ↔ s.fr.code ≠ none
  /-- With no fault recorded the whole record is clear (10_state.md R48). -/
  clear   : s.fr.code = none → s.fr = FaultRecord.clear
  /-- A recorded fault's address is where `PC` still is (60_exceptions.md R315). -/
  faultPc : s.fr.code ≠ none → s.fr.pc = s.pc
  /-- While waiting for a key `PC` is at an instruction that was fetched (40_execution_cycle.md R143). -/
  waiting : s.engine = .waitingForKey → fetchable s.pc = true
  /-- Every entry on the Call Stack is the address after a CALL (45_control_transfer.md R273). -/
  stack   : ∀ k (h : k < s.sp.val), ReturnAddress (s.stack[k]'(by omega))

end Sys2Proof.Machine
end

