-- ==== Sys2Proof/Certificates/Slice0/Obligations.lean ====
section
/-! DEFINITION. The statements for the provers. `t` and `u` are states after, `s` the state before; the rule each
statement formalises is named in its docstring. Where a clause rests on what the spec marks as its own decision
(spec/92_eei_decisions.md), the docstring names the decision D<n>; where it rests on the model's choice, the log entry.
Two things hold of many statements and are said here once. A statement about `step` takes its host call from the model's
script, and a cycle closes the model's load window (log entries 2 and 5). A clause that a fault is taken gives the WHOLE
record `FR` and that nothing else changes: that is R310, R311 and R315, and rests on the spec's decisions D8 (the record's
fields) and D9 (precision, priority) (log entry 8); that a fault is a NEXT state is the model's deduction (log entry 4). -/

namespace Sys2Proof.Claims

open Sys2Proof.Machine

/-! ### The words as the instruction rules write them (`0x8004 | x<<8 | y<<4`, …) -/

/-- `base | nnn`. -/
def wordNNN (base : Word) (nnn : Addr12) : Word := base ||| nnn.setWidth 16
/-- `base | x<<8 | kk`. -/
def wordXKK (base : Word) (x : Nibble) (kk : Byte) : Word := base ||| x.setWidth 16 <<< 8 ||| kk.setWidth 16
/-- `base | x<<8 | y<<4`. -/
def wordXY (base : Word) (x y : Nibble) : Word := base ||| x.setWidth 16 <<< 8 ||| y.setWidth 16 <<< 4
/-- `base | x<<8 | y<<4 | n`. -/
def wordXYN (base : Word) (x y n : Nibble) : Word :=
  base ||| x.setWidth 16 <<< 8 ||| y.setWidth 16 <<< 4 ||| n.setWidth 16
/-- `base | x<<8`. -/
def wordX (base : Word) (x : Nibble) : Word := base ||| x.setWidth 16 <<< 8

/-! ### What a next state holds -/

/-- The state after a fault taken in `s`: the engine halted, `FR` as 60_exceptions.md R310 and R311 say (D8), ALL ELSE as in
`s` (R315, D9; log entry 8). -/
def faulted (s : State) (code : FaultCode) (word addr : Word) : State :=
  { s with engine := .haltedOnFault, fr := { code := some code, pc := s.pc, word := word, addr := addr } }

/-- The least failing address of a transfer from `I` that leaves memory: `I` itself when it is above 0xFFF, else 0x1000. -/
def leastOutside (i : Word) : Word := if 0xFFF < i.toNat then i else 0x1000

/-- Only the register file and `PC` may differ (memory, `I`, stack, timers, framebuffer, latch and all control state are
the same data), and `PC` has advanced by 2. -/
def OnlyRegsAdvance (s t : State) : Prop := t = { s with v := t.v, pc := s.pc + 2 }

/-- `V[x]` holds `b`, every other register is as before, and nothing else has changed but `PC`, by 2. -/
def WritesReg (s t : State) (x : Nibble) (b : Byte) : Prop :=
  OnlyRegsAdvance s t ∧ ∀ r, t.reg r = if r = x then b else s.reg r

/-- VF holds the flag, `V[x]` (where it is not VF) the result, every other register is as before, and nothing else has
changed but `PC`, by 2. The flag is the last write (10_state.md R32). -/
def WritesRegAndFlag (s t : State) (x : Nibble) (result : Nat) (flag : Bool) : Prop :=
  OnlyRegsAdvance s t ∧ t.reg 0xF#4 = (if flag then 1 else 0) ∧
    (x ≠ 0xF#4 → (t.reg x).toNat = result) ∧ ∀ r, r ≠ x → r ≠ 0xF#4 → t.reg r = s.reg r

/-- The state a `cycle()` works on: the event taken off the script, and `load` closed (log entries 2 and 5). All the
block's own state is as in `s`. -/
def atCycle (s : State) : State := closeLoad (takeEvent s)

/-- The next step is a `cycle()` of a running engine. -/
def RunningCycle (s : State) : Prop := nextEvent s = .cycle ∧ s.engine = .running

/-- Pixel `q` is one a sprite of `n` rows sets at `(V[x], V[y])`: row `r` from `M[I + r]`, bit 7 leftmost, each
coordinate wrapped (44_display_random.md R253). -/
def Covered (s : State) (x y n : Nibble) (q : Pixel) : Prop :=
  ∃ r c, r < n.toNat ∧ c < 8 ∧ (s.byteAt (s.i.toNat + r)).getLsbD (7 - c) = true ∧
    q.col.val = ((s.reg x).toNat + c) % 64 ∧ q.row.val = ((s.reg y).toNat + r) % 32

/-- The sprite has at least one set bit in its first `n` rows (44_display_random.md R254). -/
def HasSetBit (s : State) (n : Nibble) : Prop :=
  ∃ r c, r < n.toNat ∧ c < 8 ∧ (s.byteAt (s.i.toNat + r)).getLsbD (7 - c) = true

/-- The sprite's rows all lie in memory. -/
def SpriteFits (s : State) (n : Nibble) : Prop := n = 0 ∨ s.i.toNat + n.toNat ≤ 0x1000

/-- Instructions executed one after another, for statements about a sequence. -/
def execAll : List Instr → State → Host.Outcome State Fault Refusal
  | [], s => .next s
  | i :: is, s =>
    match exec i s with
    | .next t => execAll is t
    | .fault r => .fault r
    | .refused r => .refused r

/-- The instructions that write a general register in the cycle that executes them (10_state.md R31; FX0A's write comes
from the poll). -/
def writesReg : Instr → Bool
  | .ldImm .. | .addImm .. | .ldReg .. | .orReg .. | .andReg .. | .xorReg .. | .addReg .. | .subReg .. | .shr ..
  | .subnReg .. | .shl .. | .rnd .. | .drw .. | .ldVxDt .. | .loadRegs .. => true
  | _ => false

/-- The instructions that read the latch (10_state.md R45). -/
def readsKeys : Instr → Bool
  | .skp .. | .sknp .. => true
  | _ => false

end Sys2Proof.Claims

open Sys2Proof Sys2Proof.Machine Sys2Proof.Claims

/-! ### Encoding and decoding (30_encoding.md) -/

/-- Decoding what an instruction encodes to gives it back, as a word and as bytes with the rest left over. -/
def Obligations.DecodeOfEncodeIsTheInstruction : Prop :=
  ∀ i : Instr, decode (encode i) = .known i ∧
    ∀ rest, decodeBytes (encodeBytes i ++ rest) = .known i rest

/-- A word that decodes is the encoding of what it decodes to: no bit of it is dropped. -/
def Obligations.EncodeOfDecodeIsTheWord : Prop :=
  ∀ (w : Word) (i : Instr), decode w = .known i → encode i = w

/-- R104, R105: a word decodes to an instruction exactly of the one row that matches it; else to Unknown of itself, and
then no row matches it. -/
def Obligations.WordDecodesToItsOneMatchingRow : Prop :=
  ∀ w : Word,
    (∀ i, decode w = .known i → i.row.holds w = true ∧ ∀ r ∈ opcodeTable, r.holds w = true → r = i.row) ∧
    (∀ u, decode w = .unknown u → u = w ∧ ∀ r ∈ opcodeTable, r.holds w = false)

/-- R106: the illegal space, family by family; every illegal word is Unknown of itself and every other word is known; and
executing an illegal word raises UnknownInstruction with that word (that SYS is illegal is the spec's decision D6; record and
frame of the fault: R310, R311, R315, its decisions D8 and D9, log entry 8). -/
def Obligations.IllegalWordsAreUnknownAndFault : Prop :=
  ∀ w : Word,
    let op := w.toNat / 0x1000
    let n := w.toNat % 0x10
    let kk := w.toNat % 0x100
    let illegal :=
      (op = 0x0 ∧ w ≠ 0x00E0 ∧ w ≠ 0x00EE) ∨ (op = 0x5 ∧ n ≠ 0) ∨
      (op = 0x8 ∧ n ∈ [0x8, 0x9, 0xA, 0xB, 0xC, 0xD, 0xF]) ∨ (op = 0x9 ∧ n ≠ 0) ∨
      (op = 0xE ∧ kk ∉ [0x9E, 0xA1]) ∨
      (op = 0xF ∧ kk ∉ [0x07, 0x0A, 0x15, 0x18, 0x1E, 0x29, 0x33, 0x55, 0x65])
    (illegal ↔ decode w = .unknown w) ∧
    (illegal → ∀ s, RunningCycle s → s.pc.toNat % 2 = 0 → s.pc.toNat ≤ 0xFFE →
      s.byteAt s.pc.toNat ++ s.byteAt (s.pc.toNat + 1) = w →
      step s = .next (faulted (atCycle s) .unknownInstruction w 0))

/-- Words written out from R104's patterns, one or more of each family, decode to the instructions they stand for. -/
def Obligations.WordsWrittenOutDecode : Prop :=
  decode 0x00E0 = .known .cls ∧ decode 0x00EE = .known .ret ∧ decode 0x1ABC = .known (.jp 0xABC) ∧
  decode 0x2300 = .known (.call 0x300) ∧ decode 0x3A05 = .known (.seImm 0xA 0x05) ∧
  decode 0x9120 = .known (.sneReg 1 2) ∧ decode 0x8AB4 = .known (.addReg 0xA 0xB) ∧
  decode 0x812E = .known (.shl 1 2) ∧ decode 0xB300 = .known (.jpV0 0x300) ∧ decode 0xC30F = .known (.rnd 3 0x0F) ∧
  decode 0xD125 = .known (.drw 1 2 5) ∧ decode 0xE19E = .known (.skp 1) ∧ decode 0xF30A = .known (.ldVxK 3) ∧
  decode 0xF233 = .known (.ldBVx 2) ∧ decode 0xF165 = .known (.loadRegs 1)

/-! ### The cycle (40_execution_cycle.md), fetch (20_memory.md R77) -/

/-- R142: in Running the cycle fetches the word at `PC`, high byte first, decodes it, faults if it is unknown and
otherwise executes exactly that instruction, on the state before it. What the fault of an unknown word records and leaves is
not R142's: R310, R311 and R315, the spec's decisions D8 and D9 (log entry 8). -/
def Obligations.StepRunsTheDecodedInstruction : Prop :=
  ∀ s : State, RunningCycle s → s.pc.toNat % 2 = 0 → s.pc.toNat ≤ 0xFFE →
    (∀ i, decode (s.byteAt s.pc.toNat ++ s.byteAt (s.pc.toNat + 1)) = .known i → step s = exec i (atCycle s)) ∧
    (∀ w, decode (s.byteAt s.pc.toNat ++ s.byteAt (s.pc.toNat + 1)) = .unknown w →
      step s = .next (faulted (atCycle s) .unknownInstruction w 0))

/-- R77, R313: a fetch past 0xFFF faults MemOutOfRange at the first address outside; else a fetch at an odd address faults
PcMisaligned there (the spec's decisions D7 and D9; record and frame of the fault: R310, R311, R315, its decisions D8 and D9,
log entry 8). -/
def Obligations.FetchFaultsByRangeThenAlignment : Prop :=
  ∀ s : State, RunningCycle s →
    (0xFFF < s.pc.toNat + 1 → step s = .next (faulted (atCycle s) .memOutOfRange 0 (leastOutside s.pc))) ∧
    (s.pc.toNat + 1 ≤ 0xFFF → s.pc.toNat % 2 = 1 → step s = .next (faulted (atCycle s) .pcMisaligned 0 s.pc))

/-- R275: the word 0NNN other than 00E0 and 00EE ("SYS") is unknown, and a cycle that fetches it halts with
`FR = (UnknownInstruction, a, w, 0)` and nothing else changed (the spec's decision D6; record and frame of the
fault: R310, R311, R315, its decisions D8 and D9, log entry 8). -/
def Obligations.SysWordsHaltTheEngine : Prop :=
  ∀ nnn : Addr12, nnn ≠ 0x0E0 → nnn ≠ 0x0EE →
    decode (wordNNN 0x0000 nnn) = .unknown (wordNNN 0x0000 nnn) ∧
    ∀ s : State, RunningCycle s → s.pc.toNat % 2 = 0 → s.pc.toNat ≤ 0xFFE →
      s.byteAt s.pc.toNat ++ s.byteAt (s.pc.toNat + 1) = wordNNN 0x0000 nnn →
      step s = .next (faulted (atCycle s) .unknownInstruction (wordNNN 0x0000 nnn) 0)

/-- R141, R156: in HaltedOnFault `cycle()` and `tick()` change no state of the block, and only `reset()` leaves it
(the spec's decisions D17 and D27). That `FR` stays is R311's, with its decision D8 (log entry 8). -/
def Obligations.HaltedEngineIsFrozenUntilReset : Prop :=
  ∀ s : State, s.engine = .haltedOnFault →
    (nextEvent s = .cycle → step s = .next (atCycle s)) ∧
    (nextEvent s = .tick → step s = .next (takeEvent s)) ∧
    (∀ t, nextEvent s ≠ .reset → step s = .next t → t.engine = .haltedOnFault ∧ t.fr = s.fr)

/-- R148: every transition of the engine state, and nothing else changes it (`reset()` from any state is the spec's
decision D27). The two clauses on `FR` are not R148's: that a halting cycle records a fault with `FR.pc = PC`, and that `FR`
is otherwise unchanged, is R41, R311 and R315, the spec's decisions D8 and D9 (log entry 8). -/
def Obligations.EngineChangesOnlyByTheTable : Prop :=
  ∀ s t : State, step s = .next t →
    match nextEvent s with
    | .reset => t.engine = .running
    | .load _ | .tick | .keyWrite _ _ => t.engine = s.engine
    | .cycle =>
      match s.engine with
      | .haltedOnFault => t.engine = .haltedOnFault
      | .waitingForKey => t.engine = if s.keys = 0 then .waitingForKey else .running
      | .running =>
        (t.engine = .waitingForKey ↔
          ∃ x, s.pc.toNat % 2 = 0 ∧ s.pc.toNat ≤ 0xFFE ∧
            decode (s.byteAt s.pc.toNat ++ s.byteAt (s.pc.toNat + 1)) = .known (.ldVxK x) ∧ t.w = x) ∧
        (t.engine = .haltedOnFault → t.fr.code ≠ none ∧ t.fr.pc = s.pc) ∧
        (t.engine ≠ .haltedOnFault → t.fr = s.fr)

/-- R315: a step that halts the engine writes `E` and `FR` and nothing else of the block: every register, `PC`, `SP`, the
stack, memory, the framebuffer, the timers and the wait register keep their values. `FR.pc` is `PC`, and no random byte
was drawn. That `FR.pc` is `PC` and a code is recorded is R310 and R311. Precision is the spec's decision D9, the record its
decision D8 (log entry 8). -/
def Obligations.FaultsArePrecise : Prop :=
  ∀ s t : State, step s = .next t → s.engine ≠ .haltedOnFault → t.engine = .haltedOnFault →
    t = { s with engine := .haltedOnFault, fr := t.fr, host := t.host } ∧
    t.fr.pc = s.pc ∧ t.fr.code ≠ none ∧ t.host.draws = s.host.draws

/-- No step of the machine stops but one: a `load` the host calls outside its window (R357, the spec's decision D28). The
refusal is the model's reading of "A model refuses `load` at any other time" (log entry 5). That every other step answers a
NEXT state, a fault and a cycle of a halted engine among them, is the model's deduction from R141, R146, R311 and R315 (log
entry 4). -/
def Obligations.OnlyALateLoadIsRefused : Prop :=
  ∀ s : State, (∃ t, step s = .next t) ∨
    (step s = .refused .loadNotAdmitted ∧ s.host.loadAdmitted = false ∧ ∃ bytes, nextEvent s = .load bytes)

/-! ### The other host calls -/

/-- R155: a tick counts both timers down by one, each never below zero, and changes no other state of the block; in
HaltedOnFault it changes nothing (the spec's decision D17). -/
def Obligations.TickCountsBothTimersDown : Prop :=
  ∀ s : State, nextEvent s = .tick →
    (s.engine ≠ .haltedOnFault → ∃ t, step s = .next t ∧ t = { takeEvent s with dt := t.dt, st := t.st } ∧
      t.dt.toNat = s.dt.toNat - 1 ∧ t.st.toNat = s.st.toNat - 1) ∧
    (s.engine = .haltedOnFault → step s = .next (takeEvent s))

/-- R155: with the delay timer at N, n ticks in a row bring it to N - n, and to exactly 0 from the N-th on; the sound timer
likewise; nothing else of the block changes. -/
def Obligations.TicksBringTheTimersToZero : Prop :=
  ∀ (n : Nat) (s : State) (rest : List HostEvent), s.engine ≠ .haltedOnFault →
    s.host.script = List.replicate n .tick ++ rest →
    ∃ t, Sys2Proof.core.run n s = .next t ∧
      t = { s with dt := t.dt, st := t.st, host := { s.host with script := rest } } ∧
      t.dt.toNat = s.dt.toNat - n ∧ t.st.toNat = s.st.toNat - n

/-- R350, R353: the reset values of every element of the block, and `reset()`, in any state, gives them all and leaves
the Input Latch as it is (the spec's decisions D26 and D27; the font's bytes and place are G3 and D11). -/
def Obligations.ResetSetsEveryElementButTheLatch : Prop :=
  ((∀ r, State.reset.reg r = 0) ∧ State.reset.i = 0 ∧ State.reset.pc = 0x200 ∧ State.reset.sp = 0 ∧
    (∀ k (h : k < 16), State.reset.stack[k] = 0) ∧ State.reset.dt = 0 ∧ State.reset.st = 0 ∧
    State.reset.engine = .running ∧ State.reset.fr = { code := none, pc := 0, word := 0, addr := 0 } ∧
    State.reset.w = 0 ∧ (∀ q, State.reset.fb.get q = false) ∧
    (List.range 80).map State.reset.byteAt =
      [0xF0, 0x90, 0x90, 0x90, 0xF0, 0x20, 0x60, 0x20, 0x20, 0x70, 0xF0, 0x10, 0xF0, 0x80, 0xF0,
       0xF0, 0x10, 0xF0, 0x10, 0xF0, 0x90, 0x90, 0xF0, 0x10, 0x10, 0xF0, 0x80, 0xF0, 0x10, 0xF0,
       0xF0, 0x80, 0xF0, 0x90, 0xF0, 0xF0, 0x10, 0x20, 0x40, 0x40, 0xF0, 0x90, 0xF0, 0x90, 0xF0,
       0xF0, 0x90, 0xF0, 0x10, 0xF0, 0xF0, 0x90, 0xF0, 0x90, 0x90, 0xE0, 0x90, 0xE0, 0x90, 0xE0,
       0xF0, 0x80, 0x80, 0x80, 0xF0, 0xE0, 0x90, 0x90, 0x90, 0xE0, 0xF0, 0x80, 0xF0, 0x80, 0xF0,
       0xF0, 0x80, 0xF0, 0x80, 0x80] ∧
    ∀ a, 80 ≤ a → State.reset.byteAt a = 0) ∧
  ∀ s : State, nextEvent s = .reset → ∃ t, step s = .next t ∧ t = { State.reset with keys := s.keys, host := t.host }

/-- R356: `load` of more than 3584 bytes writes nothing and answers SizeExceeded; of at most 3584 it copies the image to
0x200 upwards, answers Ok, and changes no other byte, no register and no engine state. For `load` in its window (the
spec's decision D28, kept as log entry 5 says). The answer is read from `host.loadResult`, the model's own field (log entry 6); that exactly
3584 bytes are accepted the spec derives from the quoted bound. -/
def Obligations.LoadCopiesTheImageOrNothing : Prop :=
  ∀ (s : State) (bytes : List Byte), nextEvent s = .load bytes → s.host.loadAdmitted = true →
    (3584 < bytes.length → ∃ t, step s = .next t ∧ t = { s with host := t.host } ∧
      t.host.loadResult = some .sizeExceeded) ∧
    (bytes.length ≤ 3584 → ∃ t, step s = .next t ∧ t = { s with mem := t.mem, host := t.host } ∧
      t.host.loadResult = some .ok ∧ (∀ k (h : k < bytes.length), t.byteAt (0x200 + k) = bytes[k]) ∧
      ∀ a, a < 0x200 ∨ 0x200 + bytes.length ≤ a → t.byteAt a = s.byteAt a)

/-- R357: the window of `load`: opened by `reset()`, closed by a `cycle()` and by a `load`, kept by a tick and a latch
write; outside it `load` is refused. That a `load` which answers SizeExceeded also closes it is the model's choice (log
entry 5). -/
def Obligations.LoadWindowOpensAtResetAndCloses : Prop :=
  State.reset.host.loadAdmitted = true ∧
  (∀ s t : State, step s = .next t →
    t.host.loadAdmitted =
      match nextEvent s with
      | .reset => true
      | .load _ | .cycle => false
      | .tick | .keyWrite _ _ => s.host.loadAdmitted) ∧
  ∀ (s : State) (bytes : List Byte), nextEvent s = .load bytes → s.host.loadAdmitted = false →
    step s = .refused .loadNotAdmitted

/-- R45, R85: a write of the collaborator sets one slot of the latch and leaves the other fifteen, and the block's own
state, as they were; the latest write wins. How the write reaches the machine is the model's choice (log entry 2). -/
def Obligations.LatchWriteSetsOneKey : Prop :=
  ∀ (s : State) (k : Nibble) (down : Bool), nextEvent s = .keyWrite k down →
    ∃ t, step s = .next t ∧ t = { takeEvent s with keys := t.keys } ∧
      ∀ j : Nibble, t.keys.getLsbD j.toNat = if j = k then down else s.keys.getLsbD j.toNat

/-! ### Whole-machine rules -/

/-- The invariant of the reachable states holds at reset (R350, R48; `FR` clear is the spec's decision D8, log entry 8). -/
def Obligations.ResetMeetsTheInvariant : Prop := Inv State.reset

/-- Every step keeps the invariant: memory canonical and inside its 4096 bytes, the font intact, the fault record in step
with the engine, the wait at a fetched instruction, return addresses on the stack. The clauses rest on R70, R74, R41, R311,
R315, R143 and R273, and so on the spec's decisions D7 to D10 and D15 (log entry 8). -/
def Obligations.EveryStepKeepsTheInvariant : Prop :=
  ∀ s t : State, Inv s → step s = .next t → Inv t

/-- R351: the font region holds its glyphs after construction, and nothing changes it: no step, of whatever event.
`FontIntact` compares with the reset contents, whose bytes ResetSetsEveryElementButTheLatch writes out. -/
def Obligations.FontIsNeverMutated : Prop :=
  FontIntact State.reset ∧ ∀ s t : State, FontIntact s → step s = .next t → FontIntact t

/-- Which instruction may write which element: general registers (R31), `I` (R33), `SP` and the stack (R37), the timers
(R39), the framebuffer (R43), memory (R70), the wait register (R42); no instruction writes the latch (R45). -/
def Obligations.OnlyTheListedInstructionsWriteEachElement : Prop :=
  ∀ (i : Instr) (s t : State), exec i s = .next t →
    (t.v ≠ s.v → writesReg i = true) ∧
    (t.i ≠ s.i → (∃ a, i = .ldI a) ∨ (∃ x, i = .addIVx x) ∨ ∃ x, i = .ldFVx x) ∧
    (t.sp ≠ s.sp → (∃ a, i = .call a) ∨ i = .ret) ∧
    (t.stack ≠ s.stack → ∃ a, i = .call a) ∧
    (t.dt ≠ s.dt → ∃ x, i = .ldDtVx x) ∧
    (t.st ≠ s.st → ∃ x, i = .ldStVx x) ∧
    (t.fb ≠ s.fb → i = .cls ∨ ∃ x y n, i = .drw x y n) ∧
    (t.mem ≠ s.mem → (∃ x, i = .ldBVx x) ∨ ∃ x, i = .storeRegs x) ∧
    (t.w ≠ s.w → ∃ x, i = .ldVxK x) ∧
    t.keys = s.keys

/-- R45: no instruction but EX9E and EXA1 reads the Input Latch: with another latch each does the same and leaves that
latch. -/
def Obligations.OnlyKeyTestsReadTheLatch : Prop :=
  ∀ (i : Instr) (s t : State) (k : Word), readsKeys i = false → exec i s = .next t →
    exec i { s with keys := k } = .next { t with keys := k }

/-- R365, D29: at a jump to itself a cycle changes nothing of the block, and after a tick the machine is still there. -/
def Obligations.SelfJumpIsTheEndOfARun : Prop :=
  ∀ (a : Word) (s : State), AtSelfJump a s →
    (nextEvent s = .cycle → step s = .next (atCycle s)) ∧
    (nextEvent s = .tick → ∃ t, step s = .next t ∧ AtSelfJump a t)

/-! ### Arithmetic and bitwise instructions (41_alu.md) -/

/-- R173, R175: 6XNN loads the immediate, 8XY0 the other register. -/
def Obligations.LoadImmediateAndMove : Prop :=
  (∀ (x : Nibble) (kk : Byte) (s : State), decode (wordXKK 0x6000 x kk) = .known (.ldImm x kk) ∧
    ∃ t, exec (.ldImm x kk) s = .next t ∧ WritesReg s t x kk) ∧
  ∀ (x y : Nibble) (s : State), decode (wordXY 0x8000 x y) = .known (.ldReg x y) ∧
    ∃ t, exec (.ldReg x y) s = .next t ∧ WritesReg s t x (s.reg y)

/-- R174: 7XNN adds modulo 256 and writes no flag. -/
def Obligations.AddImmediateWrapsWithoutFlag : Prop :=
  ∀ (x : Nibble) (kk : Byte) (s : State), decode (wordXKK 0x7000 x kk) = .known (.addImm x kk) ∧
    ∃ t, exec (.addImm x kk) s = .next t ∧ OnlyRegsAdvance s t ∧
      (t.reg x).toNat = ((s.reg x).toNat + kk.toNat) % 256 ∧ ∀ r, r ≠ x → t.reg r = s.reg r

/-- R176, R177, R178: or, and, exclusive or; VF is not written unless X is F (the spec's decision D5). -/
def Obligations.LogicOperationsKeepVF : Prop :=
  ∀ (x y : Nibble) (s : State),
    (decode (wordXY 0x8001 x y) = .known (.orReg x y) ∧
      ∃ t, exec (.orReg x y) s = .next t ∧ WritesReg s t x (s.reg x ||| s.reg y)) ∧
    (decode (wordXY 0x8002 x y) = .known (.andReg x y) ∧
      ∃ t, exec (.andReg x y) s = .next t ∧ WritesReg s t x (s.reg x &&& s.reg y)) ∧
    (decode (wordXY 0x8003 x y) = .known (.xorReg x y) ∧
      ∃ t, exec (.xorReg x y) s = .next t ∧ WritesReg s t x (s.reg x ^^^ s.reg y))

/-- R179: 8XY4 adds modulo 256 and VF is the carry, written last. -/
def Obligations.AddSetsCarry : Prop :=
  ∀ (x y : Nibble) (s : State), decode (wordXY 0x8004 x y) = .known (.addReg x y) ∧
    ∃ t, exec (.addReg x y) s = .next t ∧
      WritesRegAndFlag s t x (((s.reg x).toNat + (s.reg y).toNat) % 256)
        (decide (0xFF < (s.reg x).toNat + (s.reg y).toNat))

/-- R180, R182: 8XY5 and 8XY7 subtract modulo 256 and VF is the no-borrow, written last. For 8XY7 the
spec derives the flag from R171. -/
def Obligations.SubtractSetsNoBorrow : Prop :=
  ∀ (x y : Nibble) (s : State),
    (decode (wordXY 0x8005 x y) = .known (.subReg x y) ∧ ∃ t, exec (.subReg x y) s = .next t ∧
      WritesRegAndFlag s t x (((s.reg x).toNat + 256 - (s.reg y).toNat) % 256)
        (decide ((s.reg y).toNat ≤ (s.reg x).toNat))) ∧
    (decode (wordXY 0x8007 x y) = .known (.subnReg x y) ∧ ∃ t, exec (.subnReg x y) s = .next t ∧
      WritesRegAndFlag s t x (((s.reg y).toNat + 256 - (s.reg x).toNat) % 256)
        (decide ((s.reg x).toNat ≤ (s.reg y).toNat)))

/-- R181, R183: 8XY6 and 8XYE shift `V[x]` by one, Y ignored (the spec's decision D2), and VF is the bit
shifted out, written last. -/
def Obligations.ShiftsSetTheBitShiftedOut : Prop :=
  ∀ (x y : Nibble) (s : State),
    (decode (wordXY 0x8006 x y) = .known (.shr x y) ∧ ∃ t, exec (.shr x y) s = .next t ∧
      WritesRegAndFlag s t x ((s.reg x).toNat / 2) (decide ((s.reg x).toNat % 2 = 1))) ∧
    (decode (wordXY 0x800E x y) = .known (.shl x y) ∧ ∃ t, exec (.shl x y) s = .next t ∧
      WritesRegAndFlag s t x ((s.reg x).toNat * 2 % 256) (decide (0x80 ≤ (s.reg x).toNat)))

/-! ### Compare and skip (42_compare_skip.md) -/

/-- R200 to R204: each skip sets `PC` to `a + 4` when its condition holds and to `a + 2` otherwise, and changes nothing
else. -/
def Obligations.SkipsWriteOnlyThePc : Prop :=
  (∀ (x : Nibble) (kk : Byte) (s : State),
    decode (wordXKK 0x3000 x kk) = .known (.seImm x kk) ∧
    exec (.seImm x kk) s = .next { s with pc := if s.reg x = kk then s.pc + 4 else s.pc + 2 } ∧
    decode (wordXKK 0x4000 x kk) = .known (.sneImm x kk) ∧
    exec (.sneImm x kk) s = .next { s with pc := if s.reg x ≠ kk then s.pc + 4 else s.pc + 2 }) ∧
  ∀ (x y : Nibble) (s : State),
    decode (wordXY 0x5000 x y) = .known (.seReg x y) ∧
    exec (.seReg x y) s = .next { s with pc := if s.reg x = s.reg y then s.pc + 4 else s.pc + 2 } ∧
    decode (wordXY 0x9000 x y) = .known (.sneReg x y) ∧
    exec (.sneReg x y) s = .next { s with pc := if s.reg x ≠ s.reg y then s.pc + 4 else s.pc + 2 }

/-! ### Index register and memory (43_index_memory.md) -/

/-- R221, R222, R223: ANNN, FX1E (16-bit wrap, no flag, no fault) and FX29 (the glyph of the low nibble, FONT_BASE 0)
write `I` and `PC` only (the spec's decisions D22, D13, D11). -/
def Obligations.IndexInstructionsWriteOnlyI : Prop :=
  (∀ (nnn : Addr12) (s : State), decode (wordNNN 0xA000 nnn) = .known (.ldI nnn) ∧
    ∃ t, exec (.ldI nnn) s = .next t ∧ t = { s with i := t.i, pc := s.pc + 2 } ∧ t.i.toNat = nnn.toNat) ∧
  ∀ (x : Nibble) (s : State),
    (decode (wordX 0xF01E x) = .known (.addIVx x) ∧
      ∃ t, exec (.addIVx x) s = .next t ∧ t = { s with i := t.i, pc := s.pc + 2 } ∧
        t.i.toNat = (s.i.toNat + (s.reg x).toNat) % 65536) ∧
    (decode (wordX 0xF029 x) = .known (.ldFVx x) ∧
      ∃ t, exec (.ldFVx x) s = .next t ∧ t = { s with i := t.i, pc := s.pc + 2 } ∧
        t.i.toNat = 5 * ((s.reg x).toNat % 16))

/-- R226, R225: FX33 stores the three BCD digits at `I`, hundreds first, and nothing else changes; past 0xFFF it faults
MemOutOfRange at the least address outside; else, touching the font, FontWrite at the least font address, which is `I`
(the spec's decisions D9 and D10; the record of the fault: R310, R311, its decision D8, and its frame R315, log entry 8). -/
def Obligations.BcdStoresThreeDigitsOrFaults : Prop :=
  ∀ (x : Nibble) (s : State), decode (wordX 0xF033 x) = .known (.ldBVx x) ∧
    (0xFFF < s.i.toNat + 2 →
      exec (.ldBVx x) s = .next (faulted s .memOutOfRange (wordX 0xF033 x) (leastOutside s.i))) ∧
    (s.i.toNat ≤ 0x4F → exec (.ldBVx x) s = .next (faulted s .fontWrite (wordX 0xF033 x) s.i)) ∧
    (0x50 ≤ s.i.toNat → s.i.toNat + 2 ≤ 0xFFF →
      ∃ t, exec (.ldBVx x) s = .next t ∧ t = { s with mem := t.mem, pc := s.pc + 2 } ∧
        (t.byteAt s.i.toNat).toNat = (s.reg x).toNat / 100 ∧
        (t.byteAt (s.i.toNat + 1)).toNat = (s.reg x).toNat / 10 % 10 ∧
        (t.byteAt (s.i.toNat + 2)).toNat = (s.reg x).toNat % 10 ∧
        ∀ a, a < s.i.toNat ∨ s.i.toNat + 2 < a → t.byteAt a = s.byteAt a)

/-- R227: FX55 stores V0 to VX at `I` upwards, leaves `I`, and nothing else changes; the two faults as for FX33, over its
x + 1 addresses (the spec's decisions D4, D9, D10; the record of the faults: R310, R311, its decision D8, and their frame
R315, log entry 8). -/
def Obligations.StoreRegistersWritesVXAtIOrFaults : Prop :=
  ∀ (x : Nibble) (s : State), decode (wordX 0xF055 x) = .known (.storeRegs x) ∧
    (0xFFF < s.i.toNat + x.toNat →
      exec (.storeRegs x) s = .next (faulted s .memOutOfRange (wordX 0xF055 x) (leastOutside s.i))) ∧
    (s.i.toNat ≤ 0x4F → exec (.storeRegs x) s = .next (faulted s .fontWrite (wordX 0xF055 x) s.i)) ∧
    (0x50 ≤ s.i.toNat → s.i.toNat + x.toNat ≤ 0xFFF →
      ∃ t, exec (.storeRegs x) s = .next t ∧ t = { s with mem := t.mem, pc := s.pc + 2 } ∧
        (∀ k : Nibble, k.toNat ≤ x.toNat → t.byteAt (s.i.toNat + k.toNat) = s.reg k) ∧
        ∀ a, a < s.i.toNat ∨ s.i.toNat + x.toNat < a → t.byteAt a = s.byteAt a)

/-- R228: FX65 loads V0 to VX from `I` upwards, VF as an ordinary register, leaves `I` and memory, the font readable; past
0xFFF it faults and writes no register (the spec's decisions D4 and D9; the record of the fault: R310, R311, its
decision D8, and its frame R315, log entry 8). -/
def Obligations.LoadRegistersReadsVXFromIOrFaults : Prop :=
  ∀ (x : Nibble) (s : State), decode (wordX 0xF065 x) = .known (.loadRegs x) ∧
    (0xFFF < s.i.toNat + x.toNat →
      exec (.loadRegs x) s = .next (faulted s .memOutOfRange (wordX 0xF065 x) (leastOutside s.i))) ∧
    (s.i.toNat + x.toNat ≤ 0xFFF →
      ∃ t, exec (.loadRegs x) s = .next t ∧ OnlyRegsAdvance s t ∧
        ∀ r : Nibble, t.reg r = if r.toNat ≤ x.toNat then s.byteAt (s.i.toNat + r.toNat) else s.reg r)

/-! ### Random, clear, draw (44_display_random.md) -/

/-- R251: CXNN writes the drawn byte and-ed with kk. The byte is the free value `Config.randByte` at the count of draws,
about which nothing is known; the count, the model's own, goes up by one (log entry 3; that the byte is a free draw is the
spec's decision D24). -/
def Obligations.RandomIsMasked : Prop :=
  ∀ (x : Nibble) (kk : Byte) (s : State), decode (wordXKK 0xC000 x kk) = .known (.rnd x kk) ∧
    ∃ t, exec (.rnd x kk) s = .next t ∧
      t = { s with v := t.v, pc := s.pc + 2, host := { s.host with draws := s.host.draws + 1 } } ∧
      ∀ r, t.reg r = if r = x then Config.randByte s.host.draws &&& kk else s.reg r

/-- R252: 00E0 clears every pixel, and changes nothing else but `PC`. -/
def Obligations.ClearScreenClearsEveryPixel : Prop :=
  ∀ s : State, decode 0x00E0 = .known .cls ∧
    ∃ t, exec .cls s = .next t ∧ t = { s with fb := t.fb, pc := s.pc + 2 } ∧ ∀ q, t.fb.get q = false

/-- R253: DXYN inverts exactly the pixels of its sprite, VF is 1 exactly when one of them was set, and nothing else
changes; a row past 0xFFF faults at the least address outside and changes nothing; with n = 0 nothing is read or drawn,
VF is 0 and no `I` faults (the spec's decisions D9, D19, D20; the sprite's layout is G5; the record of the fault: R310,
R311, its decision D8, and its frame R315, log entry 8). -/
def Obligations.DrawInvertsTheSpritesPixels : Prop :=
  ∀ (x y n : Nibble) (s : State), decode (wordXYN 0xD000 x y n) = .known (.drw x y n) ∧
    (¬ SpriteFits s n →
      exec (.drw x y n) s = .next (faulted s .memOutOfRange (wordXYN 0xD000 x y n) (leastOutside s.i))) ∧
    (SpriteFits s n →
      ∃ t, exec (.drw x y n) s = .next t ∧ t = { s with v := t.v, fb := t.fb, pc := s.pc + 2 } ∧
        (∀ q, t.fb.get q ≠ s.fb.get q ↔ Covered s x y n q) ∧
        ((∃ q, Covered s x y n q ∧ s.fb.get q = true) → t.reg 0xF#4 = 1) ∧
        ((¬ ∃ q, Covered s x y n q ∧ s.fb.get q = true) → t.reg 0xF#4 = 0) ∧
        ∀ r, r ≠ 0xF#4 → t.reg r = s.reg r)

/-- R254: the same sprite drawn a second time, at the same coordinates with the same `I` and unchanged bytes, restores the
framebuffer exactly; its flag is 1 exactly when some pixel of the sprite was unset before the first draw (derived, log entry 12). -/
def Obligations.DrawingTwiceRestoresTheFramebuffer : Prop :=
  ∀ (x y n : Nibble) (s t s' u : State), SpriteFits s n → exec (.drw x y n) s = .next t →
    s'.fb = t.fb → s'.reg x = s.reg x → s'.reg y = s.reg y → s'.i = s.i →
    (∀ k, k < n.toNat → s'.byteAt (s.i.toNat + k) = s.byteAt (s.i.toNat + k)) →
    exec (.drw x y n) s' = .next u →
    u.fb = s.fb ∧ (u.reg 0xF#4 = 1 ↔ ∃ q, Covered s x y n q ∧ s.fb.get q = false)

/-- R254's own flag sentence, "`VF = 1` if the sprite has at least one set bit in its first `n` rows, else `VF = 0`", for
the second draw of a sprite whose pixels were all unset before the first, as on the clear framebuffer of R253's example.
The premise is where the spec's two sentences agree whatever the sprite; elsewhere R253 decides (derived, log entry 12). -/
def Obligations.SecondDrawFlagsTheSpritesSetBits : Prop :=
  ∀ (x y n : Nibble) (s t s' u : State), SpriteFits s n → exec (.drw x y n) s = .next t →
    s'.fb = t.fb → s'.reg x = s.reg x → s'.reg y = s.reg y → s'.i = s.i →
    (∀ k, k < n.toNat → s'.byteAt (s.i.toNat + k) = s.byteAt (s.i.toNat + k)) →
    exec (.drw x y n) s' = .next u →
    (∀ q, Covered s x y n q → s.fb.get q = false) →
    (HasSetBit s n → u.reg 0xF#4 = 1) ∧ (¬ HasSetBit s n → u.reg 0xF#4 = 0)

/-! ### Control transfer (45_control_transfer.md) -/

/-- R271, R274: 1NNN goes to nnn, BNNN to nnn + V0 (not reduced), unchecked, and nothing else changes (the spec's
decisions D3 and D7). -/
def Obligations.JumpsWriteOnlyThePc : Prop :=
  ∀ (nnn : Addr12) (s : State),
    (decode (wordNNN 0x1000 nnn) = .known (.jp nnn) ∧
      ∃ t, exec (.jp nnn) s = .next t ∧ t = { s with pc := t.pc } ∧ t.pc.toNat = nnn.toNat) ∧
    (decode (wordNNN 0xB000 nnn) = .known (.jpV0 nnn) ∧
      ∃ t, exec (.jpV0 nnn) s = .next t ∧ t = { s with pc := t.pc } ∧ t.pc.toNat = nnn.toNat + (s.reg 0).toNat)

/-- R272, R35: 2NNN pushes `a + 2` and goes to nnn; on a full stack it faults StackOverflow, with the record of R310 and
R311, and changes nothing else (the record's fields and the frame are the spec's decisions D8 and D9, log entry 8). -/
def Obligations.CallPushesTheReturnAddressOrOverflows : Prop :=
  ∀ (nnn : Addr12) (s : State), decode (wordNNN 0x2000 nnn) = .known (.call nnn) ∧
    (s.sp.val = 16 → exec (.call nnn) s = .next (faulted s .stackOverflow (wordNNN 0x2000 nnn) 0)) ∧
    (s.sp.val < 16 →
      ∃ t, exec (.call nnn) s = .next t ∧ t = { s with stack := t.stack, sp := t.sp, pc := t.pc } ∧
        t.sp.val = s.sp.val + 1 ∧ t.pc.toNat = nnn.toNat ∧
        ∀ k (h : k < 16), t.stack[k] = if k = s.sp.val then s.pc + 2 else s.stack[k])

/-- R273: 00EE goes to the popped entry, which stays in its slot; on an empty stack it faults StackUnderflow, with
the record of R310 and R311, and changes nothing else (R273 and R36 give the fault with `SP` and `PC` unchanged; the
record's fields and the rest of the frame, R315, are the spec's decisions D8 and D9, log entry 8). -/
def Obligations.ReturnPopsOrUnderflows : Prop :=
  ∀ s : State, decode 0x00EE = .known .ret ∧
    (s.sp.val = 0 → exec .ret s = .next (faulted s .stackUnderflow 0x00EE 0)) ∧
    ∀ (k : Nat) (h : k < 16), s.sp.val = k + 1 →
      ∃ t, exec .ret s = .next t ∧ t = { s with sp := t.sp, pc := s.stack[k] } ∧ t.sp.val = k

/-- R272, R273: a CALL followed by a RET, from wherever it is fetched, leaves `PC` at the address after the CALL and the depth of the
stack as before the pair; no live entry changes. -/
def Obligations.ReturnUndoesACall : Prop :=
  ∀ (nnn : Addr12) (s t u : State) (pc : Word), s.sp.val < 16 → exec (.call nnn) s = .next t →
    exec .ret { t with pc := pc } = .next u →
    u = { s with pc := s.pc + 2, stack := u.stack } ∧ ∀ k (h : k < s.sp.val), u.stack[k] = s.stack[k]

/-- R272, R35: sixteen nested CALLs from an empty stack run, and the seventeenth halts the engine with StackOverflow. The
record of that fault is R310 and R311 and its frame R315, the spec's decisions D8 and D9 (log entry 8). -/
def Obligations.SeventeenthNestedCallOverflows : Prop :=
  ∀ (targets : List Addr12) (last : Addr12) (s : State), targets.length = 16 → s.sp.val = 0 → s.engine = .running →
    ∃ t, execAll (targets.map .call) s = .next t ∧ t.engine = .running ∧ t.sp.val = 16 ∧
      exec (.call last) t = .next (faulted t .stackOverflow (wordNNN 0x2000 last) 0)

/-! ### Timers and keys (46_timers_keys.md) -/

/-- R290, R291, R292: FX07 reads the delay timer, FX15 and FX18 set the timers, and nothing else changes but `PC`. -/
def Obligations.TimerInstructionsMoveTheTimers : Prop :=
  ∀ (x : Nibble) (s : State),
    (decode (wordX 0xF007 x) = .known (.ldVxDt x) ∧ ∃ t, exec (.ldVxDt x) s = .next t ∧ WritesReg s t x s.dt) ∧
    (decode (wordX 0xF015 x) = .known (.ldDtVx x) ∧
      exec (.ldDtVx x) s = .next { s with dt := s.reg x, pc := s.pc + 2 }) ∧
    (decode (wordX 0xF018 x) = .known (.ldStVx x) ∧
      exec (.ldStVx x) s = .next { s with st := s.reg x, pc := s.pc + 2 })

/-- R293, R294, R296: EX9E skips when key V[x][3:0] is down, EXA1 when it is not; nothing else changes
(the low nibble is the spec's decision D14). -/
def Obligations.KeyTestsSkipByTheLowNibble : Prop :=
  ∀ (x : Nibble) (s : State),
    (decode (wordX 0xE09E x) = .known (.skp x) ∧ exec (.skp x) s = .next { s with
      pc := if s.keys.getLsbD ((s.reg x).toNat % 16) = true then s.pc + 4 else s.pc + 2 }) ∧
    (decode (wordX 0xE0A1 x) = .known (.sknp x) ∧ exec (.sknp x) s = .next { s with
      pc := if s.keys.getLsbD ((s.reg x).toNat % 16) = false then s.pc + 4 else s.pc + 2 })

/-- R295, R143: FX0A enters the wait, always, with `W = x` and `PC` at itself. A cycle while waiting, with no key down,
changes nothing of the block; with keys down it writes the least one's index to `V[W]`, advances `PC` by 2, sets the engine
running, and changes nothing else (the spec's decisions D15 and D16). -/
def Obligations.KeyWaitEndsWithTheLeastKey : Prop :=
  (∀ (x : Nibble) (s : State), decode (wordX 0xF00A x) = .known (.ldVxK x) ∧
    exec (.ldVxK x) s = .next { s with w := x, engine := .waitingForKey }) ∧
  ∀ s : State, nextEvent s = .cycle → s.engine = .waitingForKey →
    (s.keys = 0 → step s = .next (atCycle s)) ∧
    ∀ k : Nibble, s.keys.getLsbD k.toNat = true → (∀ j, j < k.toNat → s.keys.getLsbD j = false) →
      ∃ t, step s = .next t ∧ t = { atCycle s with v := t.v, pc := s.pc + 2, engine := .running } ∧
        ∀ r, t.reg r = if r = s.w then k.setWidth 8 else s.reg r
end

