-- ==== Sys2Proof/Laws/Decode.lean ====
section
/-! SUPPORT. The fields of the layouts of spec/30_encoding.md R102: what each extractor of R101 reads from a word laid out
as each format writes it, and a word put together again from its fields. -/

namespace Sys2Proof

/-! ### The bits of a word laid out by a format -/

theorem bit_nnn (o : Nibble) (a : Addr12) (i : Nat) :
    (o ++ a : Word).getLsbD i = if i < 12 then a.getLsbD i else o.getLsbD (i - 12) :=
  BitVec.getLsbD_append

theorem bit_byte (o x : Nibble) (i : Nat) :
    (o ++ x : Byte).getLsbD i = if i < 4 then x.getLsbD i else o.getLsbD (i - 4) :=
  BitVec.getLsbD_append

theorem bit_wordOfBytes (hi lo : Byte) (i : Nat) :
    (hi ++ lo : Word).getLsbD i = if i < 8 then lo.getLsbD i else hi.getLsbD (i - 8) :=
  BitVec.getLsbD_append

theorem bit_xkk (o x : Nibble) (k : Byte) (i : Nat) :
    (o ++ x ++ k : Word).getLsbD i =
      if i < 8 then k.getLsbD i else if i < 12 then x.getLsbD (i - 8) else o.getLsbD (i - 12) := by
  refine (bit_wordOfBytes (o ++ x) k i).trans ?_
  rw [bit_byte]
  grind

theorem bit_xyn (o x y n : Nibble) (i : Nat) :
    (o ++ x ++ y ++ n : Word).getLsbD i =
      if i < 4 then n.getLsbD i else if i < 8 then y.getLsbD (i - 4)
      else if i < 12 then x.getLsbD (i - 8) else o.getLsbD (i - 12) := by
  have h1 : (o ++ x ++ y ++ n : Word).getLsbD i =
      if i < 4 then n.getLsbD i else ((o ++ x : Byte) ++ y : Addr12).getLsbD (i - 4) := BitVec.getLsbD_append
  have h2 : ((o ++ x : Byte) ++ y : Addr12).getLsbD (i - 4) =
      if i - 4 < 4 then y.getLsbD (i - 4) else (o ++ x : Byte).getLsbD (i - 4 - 4) := BitVec.getLsbD_append
  rw [h1, h2, bit_byte]
  grind

/-! ### Format NNN: `oooo nnnn nnnn nnnn` -/

@[simp] theorem opField_nnn (o : Nibble) (a : Addr12) : opField (o ++ a) = o := by
  apply BitVec.eq_of_getLsbD_eq; intro i hi
  simp only [opField, BitVec.getLsbD_extractLsb', bit_nnn]
  grind

@[simp] theorem nnnField_nnn (o : Nibble) (a : Addr12) : nnnField (o ++ a) = a := by
  apply BitVec.eq_of_getLsbD_eq; intro i hi
  simp only [nnnField, BitVec.getLsbD_extractLsb', bit_nnn]
  grind

/-! ### Format XKK: `oooo xxxx kkkk kkkk`, and format X, whose low byte is fixed -/

@[simp] theorem opField_xkk (o x : Nibble) (k : Byte) : opField (o ++ x ++ k) = o := by
  apply BitVec.eq_of_getLsbD_eq; intro i hi
  simp only [opField, BitVec.getLsbD_extractLsb', bit_xkk]
  grind

@[simp] theorem xField_xkk (o x : Nibble) (k : Byte) : xField (o ++ x ++ k) = x := by
  apply BitVec.eq_of_getLsbD_eq; intro i hi
  simp only [xField, BitVec.getLsbD_extractLsb', bit_xkk]
  grind

@[simp] theorem kkField_xkk (o x : Nibble) (k : Byte) : kkField (o ++ x ++ k) = k := by
  apply BitVec.eq_of_getLsbD_eq; intro i hi
  simp only [kkField, BitVec.getLsbD_extractLsb', bit_xkk]
  grind

/-! ### Formats XY and XYN: `oooo xxxx yyyy nnnn` -/

@[simp] theorem opField_xyn (o x y n : Nibble) : opField (o ++ x ++ y ++ n) = o := by
  apply BitVec.eq_of_getLsbD_eq; intro i hi
  simp only [opField, BitVec.getLsbD_extractLsb', bit_xyn]
  grind

@[simp] theorem xField_xyn (o x y n : Nibble) : xField (o ++ x ++ y ++ n) = x := by
  apply BitVec.eq_of_getLsbD_eq; intro i hi
  simp only [xField, BitVec.getLsbD_extractLsb', bit_xyn]
  grind

@[simp] theorem yField_xyn (o x y n : Nibble) : yField (o ++ x ++ y ++ n) = y := by
  apply BitVec.eq_of_getLsbD_eq; intro i hi
  simp only [yField, BitVec.getLsbD_extractLsb', bit_xyn]
  grind

@[simp] theorem nField_xyn (o x y n : Nibble) : nField (o ++ x ++ y ++ n) = n := by
  apply BitVec.eq_of_getLsbD_eq; intro i hi
  simp only [nField, BitVec.getLsbD_extractLsb', bit_xyn]
  grind

/-! ### A word from its fields -/

theorem word_nnn (w : Word) : (opField w ++ nnnField w : Word) = w := by
  apply BitVec.eq_of_getLsbD_eq; intro i hi
  simp only [opField, nnnField, BitVec.getLsbD_extractLsb', bit_nnn]
  grind

theorem word_xkk (w : Word) : (opField w ++ xField w ++ kkField w : Word) = w := by
  apply BitVec.eq_of_getLsbD_eq; intro i hi
  simp only [opField, xField, kkField, BitVec.getLsbD_extractLsb', bit_xkk]
  grind

theorem word_xyn (w : Word) : (opField w ++ xField w ++ yField w ++ nField w : Word) = w := by
  apply BitVec.eq_of_getLsbD_eq; intro i hi
  simp only [opField, xField, yField, nField, BitVec.getLsbD_extractLsb', bit_xyn]
  grind

/-- The two bytes of a word, put together again, are the word (R100). -/
@[simp] theorem wordOfBytes_bytes (w : Word) : wordOfBytes (highByte w) (lowByte w) = w := by
  apply BitVec.eq_of_getLsbD_eq; intro i hi
  simp only [wordOfBytes, highByte, lowByte, BitVec.getLsbD_extractLsb', bit_wordOfBytes]
  grind

end Sys2Proof
end

