-- ==== Sys2Proof/Laws/State.lean ====
section
/-! SUPPORT. What each update of the state leaves in each field, true by unfolding, so that no later proof unfolds a
record update; and the register file's read-after-write laws (spec/10_state.md R30, R32). -/

namespace Sys2Proof.Machine

/-! ### The register file -/

theorem nibble_toNat_ne (x y : Nibble) : x.toNat ≠ y.toNat ↔ x ≠ y := by
  simp [BitVec.toNat_inj]

@[simp] theorem setReg_reg (s : State) (x r : Nibble) (b : Byte) :
    (s.setReg x b).reg r = if r = x then b else s.reg r := by
  by_cases h : r = x
  · subst h; simp [State.reg, State.setReg]
  · have h' : x.toNat ≠ r.toNat := (nibble_toNat_ne x r).2 (Ne.symm h)
    simp [State.reg, State.setReg, h, Vector.getElem_set_ne, h']

/-- The flag is the last write: it is what VF holds, whatever the destination (R32). -/
@[simp] theorem setRegFlag_reg (s : State) (x r : Nibble) (b f : Byte) :
    (s.setRegFlag x b f).reg r = if r = 0xF#4 then f else if r = x then b else s.reg r := by
  simp [State.setRegFlag]

/-- Two states with the same registers, read one by one, have the same register file. -/
theorem v_ext {s t : State} (h : ∀ r : Nibble, t.reg r = s.reg r) : t.v = s.v := by
  apply Vector.ext
  intro k hk
  have := h (BitVec.ofNat 4 k)
  simpa [State.reg, Nat.mod_eq_of_lt hk] using this

/-! ### `setReg` -/

@[simp] theorem setReg_v (s : State) (x : Nibble) (b : Byte) : (s.setReg x b).v = s.v.set x.toNat b x.isLt := rfl
@[simp] theorem setReg_i (s : State) (x : Nibble) (b : Byte) : (s.setReg x b).i = s.i := rfl
@[simp] theorem setReg_pc (s : State) (x : Nibble) (b : Byte) : (s.setReg x b).pc = s.pc := rfl
@[simp] theorem setReg_sp (s : State) (x : Nibble) (b : Byte) : (s.setReg x b).sp = s.sp := rfl
@[simp] theorem setReg_stack (s : State) (x : Nibble) (b : Byte) : (s.setReg x b).stack = s.stack := rfl
@[simp] theorem setReg_dt (s : State) (x : Nibble) (b : Byte) : (s.setReg x b).dt = s.dt := rfl
@[simp] theorem setReg_st (s : State) (x : Nibble) (b : Byte) : (s.setReg x b).st = s.st := rfl
@[simp] theorem setReg_engine (s : State) (x : Nibble) (b : Byte) : (s.setReg x b).engine = s.engine := rfl
@[simp] theorem setReg_fr (s : State) (x : Nibble) (b : Byte) : (s.setReg x b).fr = s.fr := rfl
@[simp] theorem setReg_w (s : State) (x : Nibble) (b : Byte) : (s.setReg x b).w = s.w := rfl
@[simp] theorem setReg_fb (s : State) (x : Nibble) (b : Byte) : (s.setReg x b).fb = s.fb := rfl
@[simp] theorem setReg_mem (s : State) (x : Nibble) (b : Byte) : (s.setReg x b).mem = s.mem := rfl
@[simp] theorem setReg_keys (s : State) (x : Nibble) (b : Byte) : (s.setReg x b).keys = s.keys := rfl
@[simp] theorem setReg_host (s : State) (x : Nibble) (b : Byte) : (s.setReg x b).host = s.host := rfl
@[simp] theorem setReg_byteAt (s : State) (x : Nibble) (b : Byte) (k : Nat) : (s.setReg x b).byteAt k = s.byteAt k := rfl

/-! ### `setRegFlag` -/

@[simp] theorem setRegFlag_i (s : State) (x : Nibble) (b f : Byte) : (s.setRegFlag x b f).i = s.i := rfl
@[simp] theorem setRegFlag_pc (s : State) (x : Nibble) (b f : Byte) : (s.setRegFlag x b f).pc = s.pc := rfl
@[simp] theorem setRegFlag_sp (s : State) (x : Nibble) (b f : Byte) : (s.setRegFlag x b f).sp = s.sp := rfl
@[simp] theorem setRegFlag_stack (s : State) (x : Nibble) (b f : Byte) : (s.setRegFlag x b f).stack = s.stack := rfl
@[simp] theorem setRegFlag_dt (s : State) (x : Nibble) (b f : Byte) : (s.setRegFlag x b f).dt = s.dt := rfl
@[simp] theorem setRegFlag_st (s : State) (x : Nibble) (b f : Byte) : (s.setRegFlag x b f).st = s.st := rfl
@[simp] theorem setRegFlag_engine (s : State) (x : Nibble) (b f : Byte) : (s.setRegFlag x b f).engine = s.engine := rfl
@[simp] theorem setRegFlag_fr (s : State) (x : Nibble) (b f : Byte) : (s.setRegFlag x b f).fr = s.fr := rfl
@[simp] theorem setRegFlag_w (s : State) (x : Nibble) (b f : Byte) : (s.setRegFlag x b f).w = s.w := rfl
@[simp] theorem setRegFlag_fb (s : State) (x : Nibble) (b f : Byte) : (s.setRegFlag x b f).fb = s.fb := rfl
@[simp] theorem setRegFlag_mem (s : State) (x : Nibble) (b f : Byte) : (s.setRegFlag x b f).mem = s.mem := rfl
@[simp] theorem setRegFlag_keys (s : State) (x : Nibble) (b f : Byte) : (s.setRegFlag x b f).keys = s.keys := rfl
@[simp] theorem setRegFlag_host (s : State) (x : Nibble) (b f : Byte) : (s.setRegFlag x b f).host = s.host := rfl
@[simp] theorem setRegFlag_byteAt (s : State) (x : Nibble) (b f : Byte) (k : Nat) : (s.setRegFlag x b f).byteAt k = s.byteAt k := rfl

/-! ### `setI` -/

@[simp] theorem setI_v (s : State) (a : Word) : (s.setI a).v = s.v := rfl
@[simp] theorem setI_i (s : State) (a : Word) : (s.setI a).i = a := rfl
@[simp] theorem setI_pc (s : State) (a : Word) : (s.setI a).pc = s.pc := rfl
@[simp] theorem setI_sp (s : State) (a : Word) : (s.setI a).sp = s.sp := rfl
@[simp] theorem setI_stack (s : State) (a : Word) : (s.setI a).stack = s.stack := rfl
@[simp] theorem setI_dt (s : State) (a : Word) : (s.setI a).dt = s.dt := rfl
@[simp] theorem setI_st (s : State) (a : Word) : (s.setI a).st = s.st := rfl
@[simp] theorem setI_engine (s : State) (a : Word) : (s.setI a).engine = s.engine := rfl
@[simp] theorem setI_fr (s : State) (a : Word) : (s.setI a).fr = s.fr := rfl
@[simp] theorem setI_w (s : State) (a : Word) : (s.setI a).w = s.w := rfl
@[simp] theorem setI_fb (s : State) (a : Word) : (s.setI a).fb = s.fb := rfl
@[simp] theorem setI_mem (s : State) (a : Word) : (s.setI a).mem = s.mem := rfl
@[simp] theorem setI_keys (s : State) (a : Word) : (s.setI a).keys = s.keys := rfl
@[simp] theorem setI_host (s : State) (a : Word) : (s.setI a).host = s.host := rfl
@[simp] theorem setI_reg (s : State) (a : Word) (r : Nibble) : (s.setI a).reg r = s.reg r := rfl
@[simp] theorem setI_byteAt (s : State) (a : Word) (k : Nat) : (s.setI a).byteAt k = s.byteAt k := rfl

/-! ### `jump` -/

@[simp] theorem jump_v (s : State) (a : Word) : (s.jump a).v = s.v := rfl
@[simp] theorem jump_i (s : State) (a : Word) : (s.jump a).i = s.i := rfl
@[simp] theorem jump_pc (s : State) (a : Word) : (s.jump a).pc = a := rfl
@[simp] theorem jump_sp (s : State) (a : Word) : (s.jump a).sp = s.sp := rfl
@[simp] theorem jump_stack (s : State) (a : Word) : (s.jump a).stack = s.stack := rfl
@[simp] theorem jump_dt (s : State) (a : Word) : (s.jump a).dt = s.dt := rfl
@[simp] theorem jump_st (s : State) (a : Word) : (s.jump a).st = s.st := rfl
@[simp] theorem jump_engine (s : State) (a : Word) : (s.jump a).engine = s.engine := rfl
@[simp] theorem jump_fr (s : State) (a : Word) : (s.jump a).fr = s.fr := rfl
@[simp] theorem jump_w (s : State) (a : Word) : (s.jump a).w = s.w := rfl
@[simp] theorem jump_fb (s : State) (a : Word) : (s.jump a).fb = s.fb := rfl
@[simp] theorem jump_mem (s : State) (a : Word) : (s.jump a).mem = s.mem := rfl
@[simp] theorem jump_keys (s : State) (a : Word) : (s.jump a).keys = s.keys := rfl
@[simp] theorem jump_host (s : State) (a : Word) : (s.jump a).host = s.host := rfl
@[simp] theorem jump_reg (s : State) (a : Word) (r : Nibble) : (s.jump a).reg r = s.reg r := rfl
@[simp] theorem jump_byteAt (s : State) (a : Word) (k : Nat) : (s.jump a).byteAt k = s.byteAt k := rfl

/-! ### `advance` -/

@[simp] theorem advance_v (s : State) : (s.advance).v = s.v := rfl
@[simp] theorem advance_i (s : State) : (s.advance).i = s.i := rfl
@[simp] theorem advance_pc (s : State) : (s.advance).pc = s.pc + 2 := rfl
@[simp] theorem advance_sp (s : State) : (s.advance).sp = s.sp := rfl
@[simp] theorem advance_stack (s : State) : (s.advance).stack = s.stack := rfl
@[simp] theorem advance_dt (s : State) : (s.advance).dt = s.dt := rfl
@[simp] theorem advance_st (s : State) : (s.advance).st = s.st := rfl
@[simp] theorem advance_engine (s : State) : (s.advance).engine = s.engine := rfl
@[simp] theorem advance_fr (s : State) : (s.advance).fr = s.fr := rfl
@[simp] theorem advance_w (s : State) : (s.advance).w = s.w := rfl
@[simp] theorem advance_fb (s : State) : (s.advance).fb = s.fb := rfl
@[simp] theorem advance_mem (s : State) : (s.advance).mem = s.mem := rfl
@[simp] theorem advance_keys (s : State) : (s.advance).keys = s.keys := rfl
@[simp] theorem advance_host (s : State) : (s.advance).host = s.host := rfl
@[simp] theorem advance_reg (s : State) (r : Nibble) : (s.advance).reg r = s.reg r := rfl
@[simp] theorem advance_byteAt (s : State) (k : Nat) : (s.advance).byteAt k = s.byteAt k := rfl

/-! ### `skipIf` -/

@[simp] theorem skipIf_v (s : State) (c : Bool) : (s.skipIf c).v = s.v := rfl
@[simp] theorem skipIf_i (s : State) (c : Bool) : (s.skipIf c).i = s.i := rfl
@[simp] theorem skipIf_pc (s : State) (c : Bool) : (s.skipIf c).pc = if c then s.pc + 4 else s.pc + 2 := rfl
@[simp] theorem skipIf_sp (s : State) (c : Bool) : (s.skipIf c).sp = s.sp := rfl
@[simp] theorem skipIf_stack (s : State) (c : Bool) : (s.skipIf c).stack = s.stack := rfl
@[simp] theorem skipIf_dt (s : State) (c : Bool) : (s.skipIf c).dt = s.dt := rfl
@[simp] theorem skipIf_st (s : State) (c : Bool) : (s.skipIf c).st = s.st := rfl
@[simp] theorem skipIf_engine (s : State) (c : Bool) : (s.skipIf c).engine = s.engine := rfl
@[simp] theorem skipIf_fr (s : State) (c : Bool) : (s.skipIf c).fr = s.fr := rfl
@[simp] theorem skipIf_w (s : State) (c : Bool) : (s.skipIf c).w = s.w := rfl
@[simp] theorem skipIf_fb (s : State) (c : Bool) : (s.skipIf c).fb = s.fb := rfl
@[simp] theorem skipIf_mem (s : State) (c : Bool) : (s.skipIf c).mem = s.mem := rfl
@[simp] theorem skipIf_keys (s : State) (c : Bool) : (s.skipIf c).keys = s.keys := rfl
@[simp] theorem skipIf_host (s : State) (c : Bool) : (s.skipIf c).host = s.host := rfl
@[simp] theorem skipIf_reg (s : State) (c : Bool) (r : Nibble) : (s.skipIf c).reg r = s.reg r := rfl
@[simp] theorem skipIf_byteAt (s : State) (c : Bool) (k : Nat) : (s.skipIf c).byteAt k = s.byteAt k := rfl

/-! ### `setDt` -/

@[simp] theorem setDt_v (s : State) (b : Byte) : (s.setDt b).v = s.v := rfl
@[simp] theorem setDt_i (s : State) (b : Byte) : (s.setDt b).i = s.i := rfl
@[simp] theorem setDt_pc (s : State) (b : Byte) : (s.setDt b).pc = s.pc := rfl
@[simp] theorem setDt_sp (s : State) (b : Byte) : (s.setDt b).sp = s.sp := rfl
@[simp] theorem setDt_stack (s : State) (b : Byte) : (s.setDt b).stack = s.stack := rfl
@[simp] theorem setDt_dt (s : State) (b : Byte) : (s.setDt b).dt = b := rfl
@[simp] theorem setDt_st (s : State) (b : Byte) : (s.setDt b).st = s.st := rfl
@[simp] theorem setDt_engine (s : State) (b : Byte) : (s.setDt b).engine = s.engine := rfl
@[simp] theorem setDt_fr (s : State) (b : Byte) : (s.setDt b).fr = s.fr := rfl
@[simp] theorem setDt_w (s : State) (b : Byte) : (s.setDt b).w = s.w := rfl
@[simp] theorem setDt_fb (s : State) (b : Byte) : (s.setDt b).fb = s.fb := rfl
@[simp] theorem setDt_mem (s : State) (b : Byte) : (s.setDt b).mem = s.mem := rfl
@[simp] theorem setDt_keys (s : State) (b : Byte) : (s.setDt b).keys = s.keys := rfl
@[simp] theorem setDt_host (s : State) (b : Byte) : (s.setDt b).host = s.host := rfl
@[simp] theorem setDt_reg (s : State) (b : Byte) (r : Nibble) : (s.setDt b).reg r = s.reg r := rfl
@[simp] theorem setDt_byteAt (s : State) (b : Byte) (k : Nat) : (s.setDt b).byteAt k = s.byteAt k := rfl

/-! ### `setSt` -/

@[simp] theorem setSt_v (s : State) (b : Byte) : (s.setSt b).v = s.v := rfl
@[simp] theorem setSt_i (s : State) (b : Byte) : (s.setSt b).i = s.i := rfl
@[simp] theorem setSt_pc (s : State) (b : Byte) : (s.setSt b).pc = s.pc := rfl
@[simp] theorem setSt_sp (s : State) (b : Byte) : (s.setSt b).sp = s.sp := rfl
@[simp] theorem setSt_stack (s : State) (b : Byte) : (s.setSt b).stack = s.stack := rfl
@[simp] theorem setSt_dt (s : State) (b : Byte) : (s.setSt b).dt = s.dt := rfl
@[simp] theorem setSt_st (s : State) (b : Byte) : (s.setSt b).st = b := rfl
@[simp] theorem setSt_engine (s : State) (b : Byte) : (s.setSt b).engine = s.engine := rfl
@[simp] theorem setSt_fr (s : State) (b : Byte) : (s.setSt b).fr = s.fr := rfl
@[simp] theorem setSt_w (s : State) (b : Byte) : (s.setSt b).w = s.w := rfl
@[simp] theorem setSt_fb (s : State) (b : Byte) : (s.setSt b).fb = s.fb := rfl
@[simp] theorem setSt_mem (s : State) (b : Byte) : (s.setSt b).mem = s.mem := rfl
@[simp] theorem setSt_keys (s : State) (b : Byte) : (s.setSt b).keys = s.keys := rfl
@[simp] theorem setSt_host (s : State) (b : Byte) : (s.setSt b).host = s.host := rfl
@[simp] theorem setSt_reg (s : State) (b : Byte) (r : Nibble) : (s.setSt b).reg r = s.reg r := rfl
@[simp] theorem setSt_byteAt (s : State) (b : Byte) (k : Nat) : (s.setSt b).byteAt k = s.byteAt k := rfl

/-! ### `setMem` -/

@[simp] theorem setMem_v (s : State) (m : Memory) : (s.setMem m).v = s.v := rfl
@[simp] theorem setMem_i (s : State) (m : Memory) : (s.setMem m).i = s.i := rfl
@[simp] theorem setMem_pc (s : State) (m : Memory) : (s.setMem m).pc = s.pc := rfl
@[simp] theorem setMem_sp (s : State) (m : Memory) : (s.setMem m).sp = s.sp := rfl
@[simp] theorem setMem_stack (s : State) (m : Memory) : (s.setMem m).stack = s.stack := rfl
@[simp] theorem setMem_dt (s : State) (m : Memory) : (s.setMem m).dt = s.dt := rfl
@[simp] theorem setMem_st (s : State) (m : Memory) : (s.setMem m).st = s.st := rfl
@[simp] theorem setMem_engine (s : State) (m : Memory) : (s.setMem m).engine = s.engine := rfl
@[simp] theorem setMem_fr (s : State) (m : Memory) : (s.setMem m).fr = s.fr := rfl
@[simp] theorem setMem_w (s : State) (m : Memory) : (s.setMem m).w = s.w := rfl
@[simp] theorem setMem_fb (s : State) (m : Memory) : (s.setMem m).fb = s.fb := rfl
@[simp] theorem setMem_mem (s : State) (m : Memory) : (s.setMem m).mem = m := rfl
@[simp] theorem setMem_keys (s : State) (m : Memory) : (s.setMem m).keys = s.keys := rfl
@[simp] theorem setMem_host (s : State) (m : Memory) : (s.setMem m).host = s.host := rfl
@[simp] theorem setMem_reg (s : State) (m : Memory) (r : Nibble) : (s.setMem m).reg r = s.reg r := rfl

/-! ### `setFb` -/

@[simp] theorem setFb_v (s : State) (f : Framebuffer) : (s.setFb f).v = s.v := rfl
@[simp] theorem setFb_i (s : State) (f : Framebuffer) : (s.setFb f).i = s.i := rfl
@[simp] theorem setFb_pc (s : State) (f : Framebuffer) : (s.setFb f).pc = s.pc := rfl
@[simp] theorem setFb_sp (s : State) (f : Framebuffer) : (s.setFb f).sp = s.sp := rfl
@[simp] theorem setFb_stack (s : State) (f : Framebuffer) : (s.setFb f).stack = s.stack := rfl
@[simp] theorem setFb_dt (s : State) (f : Framebuffer) : (s.setFb f).dt = s.dt := rfl
@[simp] theorem setFb_st (s : State) (f : Framebuffer) : (s.setFb f).st = s.st := rfl
@[simp] theorem setFb_engine (s : State) (f : Framebuffer) : (s.setFb f).engine = s.engine := rfl
@[simp] theorem setFb_fr (s : State) (f : Framebuffer) : (s.setFb f).fr = s.fr := rfl
@[simp] theorem setFb_w (s : State) (f : Framebuffer) : (s.setFb f).w = s.w := rfl
@[simp] theorem setFb_fb (s : State) (f : Framebuffer) : (s.setFb f).fb = f := rfl
@[simp] theorem setFb_mem (s : State) (f : Framebuffer) : (s.setFb f).mem = s.mem := rfl
@[simp] theorem setFb_keys (s : State) (f : Framebuffer) : (s.setFb f).keys = s.keys := rfl
@[simp] theorem setFb_host (s : State) (f : Framebuffer) : (s.setFb f).host = s.host := rfl
@[simp] theorem setFb_reg (s : State) (f : Framebuffer) (r : Nibble) : (s.setFb f).reg r = s.reg r := rfl
@[simp] theorem setFb_byteAt (s : State) (f : Framebuffer) (k : Nat) : (s.setFb f).byteAt k = s.byteAt k := rfl

/-! ### `countDraw` -/

@[simp] theorem countDraw_v (s : State) : (s.countDraw).v = s.v := rfl
@[simp] theorem countDraw_i (s : State) : (s.countDraw).i = s.i := rfl
@[simp] theorem countDraw_pc (s : State) : (s.countDraw).pc = s.pc := rfl
@[simp] theorem countDraw_sp (s : State) : (s.countDraw).sp = s.sp := rfl
@[simp] theorem countDraw_stack (s : State) : (s.countDraw).stack = s.stack := rfl
@[simp] theorem countDraw_dt (s : State) : (s.countDraw).dt = s.dt := rfl
@[simp] theorem countDraw_st (s : State) : (s.countDraw).st = s.st := rfl
@[simp] theorem countDraw_engine (s : State) : (s.countDraw).engine = s.engine := rfl
@[simp] theorem countDraw_fr (s : State) : (s.countDraw).fr = s.fr := rfl
@[simp] theorem countDraw_w (s : State) : (s.countDraw).w = s.w := rfl
@[simp] theorem countDraw_fb (s : State) : (s.countDraw).fb = s.fb := rfl
@[simp] theorem countDraw_mem (s : State) : (s.countDraw).mem = s.mem := rfl
@[simp] theorem countDraw_keys (s : State) : (s.countDraw).keys = s.keys := rfl
@[simp] theorem countDraw_host (s : State) : (s.countDraw).host = { s.host with draws := s.host.draws + 1 } := rfl
@[simp] theorem countDraw_reg (s : State) (r : Nibble) : (s.countDraw).reg r = s.reg r := rfl
@[simp] theorem countDraw_byteAt (s : State) (k : Nat) : (s.countDraw).byteAt k = s.byteAt k := rfl

/-! ### `raise` -/

@[simp] theorem raise_v (s : State) (c : FaultCode) (w : Word) (a : Nat) : (raise s c w a).v = s.v := rfl
@[simp] theorem raise_i (s : State) (c : FaultCode) (w : Word) (a : Nat) : (raise s c w a).i = s.i := rfl
@[simp] theorem raise_pc (s : State) (c : FaultCode) (w : Word) (a : Nat) : (raise s c w a).pc = s.pc := rfl
@[simp] theorem raise_sp (s : State) (c : FaultCode) (w : Word) (a : Nat) : (raise s c w a).sp = s.sp := rfl
@[simp] theorem raise_stack (s : State) (c : FaultCode) (w : Word) (a : Nat) : (raise s c w a).stack = s.stack := rfl
@[simp] theorem raise_dt (s : State) (c : FaultCode) (w : Word) (a : Nat) : (raise s c w a).dt = s.dt := rfl
@[simp] theorem raise_st (s : State) (c : FaultCode) (w : Word) (a : Nat) : (raise s c w a).st = s.st := rfl
@[simp] theorem raise_engine (s : State) (c : FaultCode) (w : Word) (a : Nat) : (raise s c w a).engine = .haltedOnFault := rfl
@[simp] theorem raise_fr (s : State) (c : FaultCode) (w : Word) (a : Nat) : (raise s c w a).fr = { code := some c, pc := s.pc, word := w, addr := BitVec.ofNat 16 a } := rfl
@[simp] theorem raise_w (s : State) (c : FaultCode) (w : Word) (a : Nat) : (raise s c w a).w = s.w := rfl
@[simp] theorem raise_fb (s : State) (c : FaultCode) (w : Word) (a : Nat) : (raise s c w a).fb = s.fb := rfl
@[simp] theorem raise_mem (s : State) (c : FaultCode) (w : Word) (a : Nat) : (raise s c w a).mem = s.mem := rfl
@[simp] theorem raise_keys (s : State) (c : FaultCode) (w : Word) (a : Nat) : (raise s c w a).keys = s.keys := rfl
@[simp] theorem raise_host (s : State) (c : FaultCode) (w : Word) (a : Nat) : (raise s c w a).host = s.host := rfl
@[simp] theorem raise_reg (s : State) (c : FaultCode) (w : Word) (a : Nat) (r : Nibble) : (raise s c w a).reg r = s.reg r := rfl
@[simp] theorem raise_byteAt (s : State) (c : FaultCode) (w : Word) (a : Nat) (k : Nat) : (raise s c w a).byteAt k = s.byteAt k := rfl

/-! ### `closeLoad` -/

@[simp] theorem closeLoad_v (s : State) : (closeLoad s).v = s.v := rfl
@[simp] theorem closeLoad_i (s : State) : (closeLoad s).i = s.i := rfl
@[simp] theorem closeLoad_pc (s : State) : (closeLoad s).pc = s.pc := rfl
@[simp] theorem closeLoad_sp (s : State) : (closeLoad s).sp = s.sp := rfl
@[simp] theorem closeLoad_stack (s : State) : (closeLoad s).stack = s.stack := rfl
@[simp] theorem closeLoad_dt (s : State) : (closeLoad s).dt = s.dt := rfl
@[simp] theorem closeLoad_st (s : State) : (closeLoad s).st = s.st := rfl
@[simp] theorem closeLoad_engine (s : State) : (closeLoad s).engine = s.engine := rfl
@[simp] theorem closeLoad_fr (s : State) : (closeLoad s).fr = s.fr := rfl
@[simp] theorem closeLoad_w (s : State) : (closeLoad s).w = s.w := rfl
@[simp] theorem closeLoad_fb (s : State) : (closeLoad s).fb = s.fb := rfl
@[simp] theorem closeLoad_mem (s : State) : (closeLoad s).mem = s.mem := rfl
@[simp] theorem closeLoad_keys (s : State) : (closeLoad s).keys = s.keys := rfl
@[simp] theorem closeLoad_host (s : State) : (closeLoad s).host = { s.host with loadAdmitted := false } := rfl
@[simp] theorem closeLoad_reg (s : State) (r : Nibble) : (closeLoad s).reg r = s.reg r := rfl
@[simp] theorem closeLoad_byteAt (s : State) (k : Nat) : (closeLoad s).byteAt k = s.byteAt k := rfl

/-! ### `takeEvent` -/

@[simp] theorem takeEvent_v (s : State) : (takeEvent s).v = s.v := rfl
@[simp] theorem takeEvent_i (s : State) : (takeEvent s).i = s.i := rfl
@[simp] theorem takeEvent_pc (s : State) : (takeEvent s).pc = s.pc := rfl
@[simp] theorem takeEvent_sp (s : State) : (takeEvent s).sp = s.sp := rfl
@[simp] theorem takeEvent_stack (s : State) : (takeEvent s).stack = s.stack := rfl
@[simp] theorem takeEvent_dt (s : State) : (takeEvent s).dt = s.dt := rfl
@[simp] theorem takeEvent_st (s : State) : (takeEvent s).st = s.st := rfl
@[simp] theorem takeEvent_engine (s : State) : (takeEvent s).engine = s.engine := rfl
@[simp] theorem takeEvent_fr (s : State) : (takeEvent s).fr = s.fr := rfl
@[simp] theorem takeEvent_w (s : State) : (takeEvent s).w = s.w := rfl
@[simp] theorem takeEvent_fb (s : State) : (takeEvent s).fb = s.fb := rfl
@[simp] theorem takeEvent_mem (s : State) : (takeEvent s).mem = s.mem := rfl
@[simp] theorem takeEvent_keys (s : State) : (takeEvent s).keys = s.keys := rfl
@[simp] theorem takeEvent_host (s : State) : (takeEvent s).host = { s.host with script := s.host.script.tail } := rfl
@[simp] theorem takeEvent_reg (s : State) (r : Nibble) : (takeEvent s).reg r = s.reg r := rfl
@[simp] theorem takeEvent_byteAt (s : State) (k : Nat) : (takeEvent s).byteAt k = s.byteAt k := rfl

/-! ### A load of several registers (43_index_memory.md R228) -/

/-- The registers from `k` on take the bytes in order; every other register is as before. -/
theorem setRegs_reg (bs : List Byte) : ∀ (s : State) (k : Nat) (r : Nibble), k + bs.length ≤ 16 →
    (s.setRegs k bs).reg r =
      if h : k ≤ r.toNat ∧ r.toNat < k + bs.length then bs[r.toNat - k]'(by omega) else s.reg r := by
  induction bs with
  | nil => intro s k r _; simp [State.setRegs]
  | cons b bs ih =>
    intro s k r hk
    simp only [List.length_cons] at hk
    rw [State.setRegs, ih _ (k + 1) r (by omega), setReg_reg]
    have hr : r = BitVec.ofNat 4 k ↔ r.toNat = k := by
      rw [← BitVec.toNat_inj, BitVec.toNat_ofNat, Nat.mod_eq_of_lt (by omega)]
    by_cases h1 : r.toNat = k
    · have h3 : k ≤ r.toNat ∧ r.toNat < k + (b :: bs).length := by simp; omega
      rw [dif_neg (by omega), dif_pos h3, if_pos (hr.2 h1)]
      simp [h1]
    · by_cases h2 : k + 1 ≤ r.toNat ∧ r.toNat < k + 1 + bs.length
      · have h3 : k ≤ r.toNat ∧ r.toNat < k + (b :: bs).length := by simp; omega
        rw [dif_pos h2, dif_pos h3]
        obtain ⟨j, hj⟩ : ∃ j, r.toNat - k = j + 1 := ⟨r.toNat - k - 1, by omega⟩
        have : r.toNat - (k + 1) = j := by omega
        simp [hj, this]
      · have h3 : ¬ (k ≤ r.toNat ∧ r.toNat < k + (b :: bs).length) := by simp; omega
        rw [dif_neg h2, dif_neg h3, if_neg (fun e => h1 (hr.1 e))]

/-- A load of several registers changes the register file only. -/
theorem setRegs_frame (bs : List Byte) : ∀ (s : State) (k : Nat),
    s.setRegs k bs = { s with v := (s.setRegs k bs).v } := by
  induction bs with
  | nil => intro s k; rfl
  | cons b bs ih => intro s k; exact ih (s.setReg (BitVec.ofNat 4 k) b) (k + 1)

end Sys2Proof.Machine
end

