-- ==== Sys2Proof/Laws/Framebuffer.lean ====
section
/-! SUPPORT. The laws of the framebuffer writer (spec/44_display_random.md R253): toggling a pixel, the pixels of a sprite,
and what drawing a list of pixels does. -/

namespace Sys2Proof.Machine

theorem Pixel.ext' (p q : Pixel) (hr : p.row.val = q.row.val) (hc : p.col.val = q.col.val) : p = q := by
  cases p; cases q; simp_all [Fin.ext_iff]

/-- A toggle inverts one pixel and leaves every other. -/
@[simp] theorem get_toggle (f : Framebuffer) (p q : Pixel) :
    (f.toggle p).get q = if q = p then !f.get p else f.get q := by
  by_cases hr : p.row.val = q.row.val
  · by_cases hc : p.col.val = q.col.val
    · obtain rfl := Pixel.ext' p q hr hc
      simp [Framebuffer.toggle, Framebuffer.get]
    · have hne : ¬ q = p := fun e => hc (by rw [e])
      simp [Framebuffer.toggle, Framebuffer.get, hne, hr, Vector.getElem_set_ne, hc]
  · have hne : ¬ q = p := fun e => hr (by rw [e])
    simp [Framebuffer.toggle, Framebuffer.get, hne, Vector.getElem_set_ne, hr]

@[simp] theorem get_clear (q : Pixel) : Framebuffer.clear.get q = false := by
  simp [Framebuffer.get, Framebuffer.clear]

/-- Two framebuffers with the same pixels are equal. -/
theorem fb_ext (f g : Framebuffer) (h : ∀ q : Pixel, f.get q = g.get q) : f = g := by
  apply Vector.ext
  intro y hy
  apply Vector.ext
  intro x hx
  exact h ⟨⟨y, hy⟩, ⟨x, hx⟩⟩

/-- Drawing pixels none of which comes twice inverts exactly those pixels (R253, XOR). -/
theorem drawPixels_get (ps : List Pixel) : ∀ (f : Framebuffer) (q : Pixel), ps.Nodup →
    (drawPixels ps f).1.get q = (f.get q ^^ decide (q ∈ ps)) := by
  induction ps with
  | nil => intro f q _; simp [drawPixels]
  | cons p ps ih =>
    intro f q h
    have hp := List.nodup_cons.1 h
    rw [drawPixels]
    by_cases hq : q = p
    · subst hq; simp [ih _ _ hp.2, hp.1]
    · simp [ih _ _ hp.2, hq]

/-- Some pixel drawn was set before: the collision (R253). -/
theorem drawPixels_collision (ps : List Pixel) : ∀ (f : Framebuffer), ps.Nodup →
    (drawPixels ps f).2 = ps.any f.get := by
  induction ps with
  | nil => intro f _; rfl
  | cons p ps ih =>
    intro f h
    have hp := List.nodup_cons.1 h
    have : ps.any (f.toggle p).get = ps.any f.get := by
      rw [Bool.eq_iff_iff]
      simp only [List.any_eq_true, get_toggle]
      constructor <;> rintro ⟨q, hq, h2⟩ <;> refine ⟨q, hq, ?_⟩ <;>
        simpa [show q ≠ p from fun e => hp.1 (e ▸ hq)] using h2
    rw [drawPixels, ih _ hp.2, this, List.any_cons]

/-- Drawing the same pixels twice restores the framebuffer (R254). -/
theorem drawPixels_twice (ps : List Pixel) (f : Framebuffer) (h : ps.Nodup) :
    (drawPixels ps (drawPixels ps f).1).1 = f := by
  apply fb_ext
  intro q
  simp [drawPixels_get, h]

theorem mem_rowPixels (x0 y0 row : Byte) (r : Nat) (p : Pixel) :
    p ∈ rowPixels x0 y0 row r ↔ ∃ c, c < 8 ∧ row.getLsbD (7 - c) = true ∧ spritePlace x0 y0 r c = p := by
  simp [rowPixels, and_assoc]

/-- The pixels of a sprite: one for each row byte and each column whose bit is 1 (R253). -/
theorem mem_spritePixels (x0 y0 : Byte) (rows : List Byte) : ∀ (r : Nat) (p : Pixel),
    p ∈ spritePixels x0 y0 r rows ↔
      ∃ k, ∃ h : k < rows.length, ∃ c, c < 8 ∧ rows[k].getLsbD (7 - c) = true ∧ spritePlace x0 y0 (r + k) c = p := by
  induction rows with
  | nil => intro r p; simp [spritePixels]
  | cons b bs ih =>
    intro r p
    rw [spritePixels, List.mem_append, mem_rowPixels, ih]
    constructor
    · rintro (⟨c, hc⟩ | ⟨k, hk, c, h1, h2, h3⟩)
      · exact ⟨0, by simp, c, by simpa using hc⟩
      · exact ⟨k + 1, by simpa using hk, c, h1, by simpa using h2, by rw [← h3]; congr 1; omega⟩
    · rintro ⟨k, hk, c, h1, h2, h3⟩
      cases k with
      | zero => exact .inl ⟨c, h1, by simpa using h2, by simpa using h3⟩
      | succ k => exact .inr ⟨k, by simpa using hk, c, h1, by simpa using h2, by rw [← h3]; congr 1; omega⟩

/-- Fewer than 64 columns and 32 rows: two places of one sprite are the same only for the same row and column (R253). -/
theorem spritePlace_inj (x0 y0 : Byte) (r c r' c' : Nat) (hr : r < 32) (hr' : r' < 32) (hc : c < 64) (hc' : c' < 64)
    (h : spritePlace x0 y0 r c = spritePlace x0 y0 r' c') : r = r' ∧ c = c' := by
  simp only [spritePlace, Pixel.mk.injEq, Fin.ext_iff, Fin.val_ofNat] at h
  omega

/-- No two pixels of a sprite of at most 32 rows land on the same place (R253, corner cases). -/
theorem spritePixels_nodup (x0 y0 : Byte) (rows : List Byte) : ∀ r, r + rows.length ≤ 32 →
    (spritePixels x0 y0 r rows).Nodup := by
  induction rows with
  | nil => intro r _; simp [spritePixels]
  | cons b bs ih =>
    intro r h
    simp only [List.length_cons] at h
    rw [spritePixels, List.nodup_append]
    refine ⟨?_, ih (r + 1) (by omega), ?_⟩
    · rw [rowPixels]
      refine List.Nodup.map_on ?_ (List.Nodup.filter _ List.nodup_range)
      intro c hc c' hc' e
      simp only [List.mem_filter, List.mem_range] at hc hc'
      exact (spritePlace_inj x0 y0 r c r c' (by omega) (by omega) (by omega) (by omega) e).2
    · intro p hp q hq e
      subst e
      obtain ⟨c, hc, -, h1⟩ := (mem_rowPixels x0 y0 b r p).1 hp
      obtain ⟨k, hk, c', hc', -, h2⟩ := (mem_spritePixels x0 y0 bs (r + 1) p).1 hq
      have := (spritePlace_inj x0 y0 r c (r + 1 + k) c' (by omega) (by omega) (by omega) (by omega) (h1.trans h2.symm)).1
      omega

end Sys2Proof.Machine
end

