-- ==== Sys2Proof/Laws/Memory.lean ====
section
/-! SUPPORT. The laws of memory (spec/20_memory.md): a byte written is the byte read, every other byte stays, every
operation keeps the canonical form, and what the checks of a transfer decide. -/

namespace Sys2Proof.Machine

/-! ### Read after write (R84) -/

theorem read_dropCell (m : Memory) (a k : Nat) :
    Memory.read (Memory.dropCell a m) k = if k = a then Memory.initial a else Memory.read m k := by
  induction m with
  | nil => by_cases h : k = a <;> simp [Memory.dropCell, Memory.read, h]
  | cons c m ih =>
    by_cases hc : c.1 = a
    · by_cases hk : k = a
      · simpa [Memory.dropCell, hc, hk] using ih
      · have : ¬ a = k := fun e => hk e.symm
        simp [Memory.dropCell, Memory.read, hc, ih, hk, this]
    · by_cases hk : c.1 = k
      · have : ¬ k = a := fun e => hc (hk.trans e)
        simp [Memory.dropCell, Memory.read, hk, this]
      · simp [Memory.dropCell, Memory.read, hc, hk, ih]

/-- Reading after a cell is put into a memory that has none of its address. -/
theorem read_insertCell (m : Memory) (a k : Nat) (b : Byte) (h : ∀ c ∈ m, c.1 ≠ a) :
    Memory.read (Memory.insertCell a b m) k = if k = a then b else Memory.read m k := by
  induction m with
  | nil => simp [Memory.insertCell, Memory.read, eq_comm]
  | cons c m ih =>
    have hc : c.1 ≠ a := h c (by simp)
    have ih := ih fun d hd => h d (by simp [hd])
    by_cases hlt : a < c.1
    · by_cases hk : k = a
      · simp [Memory.insertCell, Memory.read, hlt, hk]
      · have : ¬ a = k := fun e => hk e.symm
        simp [Memory.insertCell, Memory.read, hlt, hk, this]
    · by_cases hk : c.1 = k
      · have : ¬ k = a := fun e => hc (hk.trans e)
        rw [Memory.insertCell, if_neg hlt, Memory.read, if_pos hk, if_neg this, Memory.read, if_pos hk]
      · simp [Memory.insertCell, Memory.read, hlt, hk, ih]

theorem dropCell_ne (m : Memory) (a : Nat) : ∀ c ∈ Memory.dropCell a m, c.1 ≠ a := by
  induction m with
  | nil => simp [Memory.dropCell]
  | cons c m ih =>
    by_cases hc : c.1 = a
    · simpa [Memory.dropCell, hc] using ih
    · intro d hd
      simp only [Memory.dropCell, hc, if_false, List.mem_cons] at hd
      rcases hd with rfl | hd
      · exact hc
      · exact ih d hd

/-- A read after a write: the byte written at its address, every other byte as before (R84). -/
@[simp] theorem read_write (m : Memory) (a k : Nat) (b : Byte) :
    Memory.read (Memory.write m a b) k = if k = a then b else Memory.read m k := by
  unfold Memory.write
  split
  · rename_i h; rw [read_dropCell, h]
  · rw [read_insertCell _ _ _ _ (dropCell_ne m a), read_dropCell]
    by_cases hk : k = a <;> simp [hk]

/-- A read after a list of bytes is written at `a` upwards (R75). -/
theorem read_writeList (bs : List Byte) : ∀ (m : Memory) (a k : Nat),
    Memory.read (Memory.writeList m a bs) k =
      if h : a ≤ k ∧ k < a + bs.length then bs[k - a]'(by omega) else Memory.read m k := by
  induction bs with
  | nil => intro m a k; rw [Memory.writeList, dif_neg (by simp)]
  | cons b bs ih =>
    intro m a k
    rw [Memory.writeList, ih, read_write]
    by_cases h1 : k = a
    · subst h1
      rw [dif_neg (by omega), dif_pos (by simp)]
      simp
    · by_cases h2 : a + 1 ≤ k ∧ k < a + 1 + bs.length
      · have h3 : a ≤ k ∧ k < a + (b :: bs).length := by simp; omega
        rw [dif_pos h2, dif_pos h3]
        obtain ⟨j, hj⟩ : ∃ j, k - a = j + 1 := ⟨k - a - 1, by omega⟩
        have : k - (a + 1) = j := by omega
        simp [hj, this]
      · have h3 : ¬ (a ≤ k ∧ k < a + (b :: bs).length) := by simp; omega
        rw [dif_neg h2, dif_neg h3, if_neg h1]

/-- Every address outside the bytes written reads as before. -/
theorem read_writeList_other (bs : List Byte) (m : Memory) (a k : Nat) (h : k < a ∨ a + bs.length ≤ k) :
    Memory.read (Memory.writeList m a bs) k = Memory.read m k := by
  rw [read_writeList, dif_neg (by omega)]

/-! ### The canonical form -/

theorem wfFrom_mono (m : Memory) (lo lo' : Nat) (h : lo ≤ lo') (hm : Memory.wfFrom lo' m = true) :
    Memory.wfFrom lo m = true := by
  cases m with
  | nil => rfl
  | cons c m =>
    simp only [Memory.wfFrom, Bool.and_eq_true, decide_eq_true_eq] at hm ⊢
    exact ⟨⟨⟨by omega, hm.1.1.2⟩, hm.1.2⟩, hm.2⟩

theorem dropCell_wfFrom (m : Memory) (a : Nat) : ∀ lo, Memory.wfFrom lo m = true →
    Memory.wfFrom lo (Memory.dropCell a m) = true := by
  induction m with
  | nil => simp [Memory.dropCell]
  | cons c m ih =>
    intro lo h
    simp only [Memory.wfFrom, Bool.and_eq_true, decide_eq_true_eq] at h
    by_cases hc : c.1 = a
    · simp only [Memory.dropCell, hc, if_true]
      exact ih lo (wfFrom_mono m lo (c.1 + 1) (by omega) h.2)
    · simp only [Memory.dropCell, hc, if_false, Memory.wfFrom, Bool.and_eq_true, decide_eq_true_eq]
      exact ⟨h.1, ih _ h.2⟩

theorem insertCell_wfFrom (m : Memory) (a : Nat) (b : Byte) (ha : a < memSize) (hb : b ≠ Memory.initial a) :
    ∀ lo, lo ≤ a → (∀ c ∈ m, c.1 ≠ a) → Memory.wfFrom lo m = true →
      Memory.wfFrom lo (Memory.insertCell a b m) = true := by
  induction m with
  | nil => intro lo hlo _ _; simp [Memory.insertCell, Memory.wfFrom, hlo, ha, hb]
  | cons c m ih =>
    intro lo hlo hne h
    simp only [Memory.wfFrom, Bool.and_eq_true, decide_eq_true_eq] at h
    by_cases hlt : a < c.1
    · simp only [Memory.insertCell, hlt, if_true, Memory.wfFrom, Bool.and_eq_true, decide_eq_true_eq]
      exact ⟨⟨⟨hlo, ha⟩, hb⟩, ⟨⟨by omega, h.1.1.2⟩, h.1.2⟩, h.2⟩
    · have hc : c.1 ≠ a := hne c (by simp)
      simp only [Memory.insertCell, hlt, if_false, Memory.wfFrom, Bool.and_eq_true, decide_eq_true_eq]
      exact ⟨h.1, ih (c.1 + 1) (by omega) (fun d hd => hne d (by simp [hd])) h.2⟩

/-- A write inside the address space keeps the canonical form. -/
theorem write_wf (m : Memory) (a : Nat) (b : Byte) (ha : a < memSize) (h : Memory.wf m = true) :
    Memory.wf (Memory.write m a b) = true := by
  unfold Memory.write Memory.wf at *
  split
  · exact dropCell_wfFrom m a 0 h
  · rename_i hb
    exact insertCell_wfFrom _ a b ha hb 0 (Nat.zero_le a) (dropCell_ne m a) (dropCell_wfFrom m a 0 h)

/-- A list of bytes written inside the address space keeps the canonical form. -/
theorem writeList_wf (bs : List Byte) : ∀ (m : Memory) (a : Nat), a + bs.length ≤ memSize →
    Memory.wf m = true → Memory.wf (Memory.writeList m a bs) = true := by
  induction bs with
  | nil => intro m a _ h; exact h
  | cons b bs ih =>
    intro m a ha h
    simp only [List.length_cons] at ha
    exact ih _ (a + 1) (by omega) (write_wf m a b (by omega) h)

/-- In a memory in canonical form, equal bytes everywhere mean equal data. -/
theorem wfFrom_ext : ∀ (m m' : Memory) (lo : Nat), Memory.wfFrom lo m = true → Memory.wfFrom lo m' = true →
    (∀ k, Memory.read m k = Memory.read m' k) → m = m' := by
  have below : ∀ (m : Memory) (lo k : Nat), Memory.wfFrom lo m = true → k < lo →
      Memory.read m k = Memory.initial k := by
    intro m
    induction m with
    | nil => intros; rfl
    | cons c m ih =>
      intro lo k h hk
      simp only [Memory.wfFrom, Bool.and_eq_true, decide_eq_true_eq] at h
      rw [Memory.read, if_neg (by omega)]
      exact ih _ k h.2 (by omega)
  have head : ∀ (c : Host.Cell) (m : Memory) (lo : Nat), Memory.wfFrom lo (c :: m) = true →
      Memory.read (c :: m) c.1 = c.2 ∧ c.2 ≠ Memory.initial c.1 := by
    intro c m lo h
    simp only [Memory.wfFrom, Bool.and_eq_true, decide_eq_true_eq] at h
    exact ⟨by simp [Memory.read], h.1.2⟩
  intro m
  induction m with
  | nil =>
    intro m' lo _ h' hr
    cases m' with
    | nil => rfl
    | cons c m' =>
      obtain ⟨h1, h2⟩ := head c m' lo h'
      exact absurd ((hr c.1).trans h1).symm h2
  | cons c m ih =>
    intro m' lo h h' hr
    obtain ⟨c1, c2⟩ := head c m lo h
    cases m' with
    | nil => exact absurd (c1.symm.trans (hr c.1)) c2
    | cons d m' =>
      obtain ⟨d1, d2⟩ := head d m' lo h'
      simp only [Memory.wfFrom, Bool.and_eq_true, decide_eq_true_eq] at h h'
      have hcd : c.1 = d.1 := by
        rcases Nat.lt_trichotomy c.1 d.1 with hlt | heq | hgt
        · have := below (d :: m') (c.1 + 1) c.1
            (by simp only [Memory.wfFrom, Bool.and_eq_true, decide_eq_true_eq]
                exact ⟨⟨⟨by omega, h'.1.1.2⟩, h'.1.2⟩, h'.2⟩) (by omega)
          exact absurd (c1.symm.trans ((hr c.1).trans this)) c2
        · exact heq
        · have := below (c :: m) (d.1 + 1) d.1
            (by simp only [Memory.wfFrom, Bool.and_eq_true, decide_eq_true_eq]
                exact ⟨⟨⟨by omega, h.1.1.2⟩, h.1.2⟩, h.2⟩) (by omega)
          exact absurd (d1.symm.trans ((hr d.1).symm.trans this)) d2
      have hcd2 : c.2 = d.2 := by
        have := hr c.1
        rw [c1, hcd, d1] at this
        exact this
      obtain rfl : c = d := Prod.ext hcd hcd2
      congr 1
      refine ih m' (c.1 + 1) h.2 h'.2 fun k => ?_
      by_cases hk : c.1 = k
      · rw [below m _ k h.2 (by omega), below m' _ k h'.2 (by omega)]
      · simpa [Memory.read, hk] using hr k

/-! ### The checks of a transfer (R72, R74, R75) -/

theorem firstOutOfRange_none (base n : Nat) : firstOutOfRange base n = none ↔ n = 0 ∨ base + n ≤ 4096 := by
  simp only [firstOutOfRange, List.find?_eq_none, List.mem_map, List.mem_range, decide_eq_true_eq,
    forall_exists_index, and_imp, forall_apply_eq_imp_iff₂]
  constructor
  · intro h
    rcases Nat.eq_zero_or_pos n with h0 | h0
    · exact .inl h0
    · have := h (n - 1) (by omega)
      omega
  · intro h k hk
    omega

/-- The reported address is the least one of the transfer that satisfies a test. -/
theorem find_transfer_some (p : Nat → Bool) (base a : Nat) : ∀ n,
    ((List.range n).map (base + ·)).find? p = some a ↔
      base ≤ a ∧ a < base + n ∧ p a = true ∧ ∀ k, base ≤ k → k < a → p k = false := by
  intro n
  induction n with
  | zero => simp; omega
  | succ n ih =>
    rw [List.range_succ, List.map_append, List.find?_append, Option.or_eq_some_iff, ih]
    have hnone : List.find? p (List.map (base + ·) (List.range n)) = none ↔
        ∀ k, base ≤ k → k < base + n → p k = false := by
      simp only [List.find?_eq_none, List.mem_map, List.mem_range, forall_exists_index, and_imp,
        forall_apply_eq_imp_iff₂, Bool.not_eq_true]
      exact ⟨fun h k h1 h2 => by simpa [Nat.add_sub_cancel' h1] using h (k - base) (by omega),
        fun h k hk => h (base + k) (by omega) (by omega)⟩
    rw [hnone]
    constructor
    · rintro (⟨h1, h2, h3, h4⟩ | ⟨h1, h2⟩)
      · exact ⟨h1, by omega, h3, h4⟩
      · simp only [List.map_cons, List.map_nil, List.find?_cons] at h2
        split at h2
        · obtain rfl : base + n = a := by simpa using h2
          exact ⟨by omega, by omega, by assumption, h1⟩
        · simp at h2
    · rintro ⟨h1, h2, h3, h4⟩
      rcases Nat.lt_or_ge a (base + n) with h | h
      · exact .inl ⟨h1, h, h3, h4⟩
      · obtain rfl : a = base + n := by omega
        exact .inr ⟨h4, by simp [h3]⟩

theorem firstOutOfRange_some (base n a : Nat) : firstOutOfRange base n = some a ↔
    base ≤ a ∧ a < base + n ∧ 0xFFF < a ∧ ∀ k, base ≤ k → k < a → k ≤ 0xFFF := by
  rw [firstOutOfRange, find_transfer_some]
  simp

theorem firstInFont_some (base n a : Nat) : firstInFont base n = some a ↔
    base ≤ a ∧ a < base + n ∧ inFont a = true ∧ ∀ k, base ≤ k → k < a → inFont k = false :=
  find_transfer_some inFont base a n

theorem firstInFont_none (base n : Nat) : firstInFont base n = none ↔
    ∀ k, base ≤ k → k < base + n → inFont k = false := by
  simp only [firstInFont, List.find?_eq_none, List.mem_map, List.mem_range, forall_exists_index, and_imp,
    forall_apply_eq_imp_iff₂, Bool.not_eq_true]
  exact ⟨fun h k h1 h2 => by simpa [Nat.add_sub_cancel' h1] using h (k - base) (by omega),
    fun h k hk => h (base + k) (by omega) (by omega)⟩

/-- A load transfer is free of faults exactly when it stays inside memory. -/
theorem loadFault_none (base n : Nat) : loadFault base n = none ↔ n = 0 ∨ base + n ≤ 4096 := by
  simp [loadFault, firstOutOfRange_none]

/-- A store transfer is free of faults exactly when it stays inside memory and outside the font region. -/
theorem storeFault_none (base n : Nat) : storeFault base n = none ↔
    (n = 0 ∨ base + n ≤ 4096) ∧ ∀ k, base ≤ k → k < base + n → inFont k = false := by
  rw [← firstOutOfRange_none, ← firstInFont_none, storeFault]
  cases h : firstOutOfRange base n <;> simp

theorem bytesAtI_length (n : Nat) (s : State) : (bytesAtI n s).length = n := by simp [bytesAtI]

theorem bytesAtI_get (n : Nat) (s : State) (k : Nat) (h : k < (bytesAtI n s).length) :
    (bytesAtI n s)[k] = s.byteAt (s.i.toNat + k) := by simp [bytesAtI]

theorem bcdDigits_length (b : Byte) : (bcdDigits b).length = 3 := rfl

theorem regsUpTo_length (x : Nibble) (s : State) : (regsUpTo x s).length = x.toNat + 1 := by simp [regsUpTo]

theorem regsUpTo_get (x : Nibble) (s : State) (k : Nat) (h : k < (regsUpTo x s).length) :
    (regsUpTo x s)[k] = s.reg (BitVec.ofNat 4 k) := by simp [regsUpTo]

/-- What a store through `I` can do: fault with nothing else written, or write all its bytes (R75). -/
theorem storeAtI_cases (i : Instr) (bs : List Byte) (newI : Word) (s : State) :
    (∃ c a, storeFault s.i.toNat bs.length = some (c, a) ∧ storeAtI i bs newI s = raise s c (encode i) a) ∨
    (storeFault s.i.toNat bs.length = none ∧
      storeAtI i bs newI s = { s with mem := Memory.writeList s.mem s.i.toNat bs, i := newI, pc := s.pc + 2 }) := by
  unfold storeAtI
  cases h : storeFault s.i.toNat bs.length with
  | none => exact .inr ⟨rfl, rfl⟩
  | some ca => exact .inl ⟨ca.1, ca.2, rfl, rfl⟩

end Sys2Proof.Machine
end

