-- ==== Sys2Proof/Laws/Exec.lean ====
section
/-! SUPPORT. What an instruction, a cycle and a step can do: one inversion lemma for each, so that an invariant is proved
by its cases and not by unfolding every meaning again. -/

namespace Sys2Proof.Machine

/-- An instruction that touches neither memory, stack, engine, fault record, wait register nor latch. -/
def PlainEffect (s t : State) : Prop :=
  ∃ v i pc dt st fb draws, t =
    { s with v := v, i := i, pc := pc, dt := dt, st := st, fb := fb, host := { s.host with draws := draws } }

/-- An instruction that stores at `I` upwards, all its checks passed (20_memory.md R75). -/
def StoreEffect (s t : State) : Prop :=
  ∃ bs i, storeFault s.i.toNat bs.length = none ∧
    t = { s with mem := Memory.writeList s.mem s.i.toNat bs, i := i, pc := s.pc + 2 }

/-- A call that pushes `a + 2` (10_state.md R35). -/
def PushEffect (s t : State) : Prop :=
  ∃ (h : s.sp.val < 16) (pc : Word), t =
    { s with stack := s.stack.set s.sp.val (s.pc + 2) h, sp := ⟨s.sp.val + 1, by omega⟩, pc := pc }

/-- A return that pops (10_state.md R36). -/
def PopEffect (s t : State) : Prop :=
  ∃ (_ : 0 < s.sp.val), t = { s with sp := ⟨s.sp.val - 1, by omega⟩, pc := s.stack[s.sp.val - 1]'(by omega) }

theorem plain_of_reg (s : State) (v : Vector Byte 16) (pc : Word) : PlainEffect s { s with v := v, pc := pc } :=
  ⟨v, s.i, pc, s.dt, s.st, s.fb, s.host.draws, rfl⟩

/-- Everything one instruction can do (41_alu.md to 46_timers_keys.md): an effect on registers, timers and framebuffer; a
fault; FX0A's entry of the key wait; a store of FX33 or FX55; a call's push; a return's pop. -/
theorem exec_cases (i : Instr) (s : State) :
    ∃ t, exec i s = .next t ∧
      ((PlainEffect s t ∧ ∀ x, i ≠ .ldVxK x) ∨ (∃ c a, t = raise s c (encode i) a ∧ ∀ x, i ≠ .ldVxK x) ∨
        (∃ x, i = .ldVxK x ∧ t = { s with w := x, engine := .waitingForKey }) ∨
        (StoreEffect s t ∧ ((∃ x, i = .ldBVx x) ∨ ∃ x, i = .storeRegs x)) ∨
        (PushEffect s t ∧ ∃ nnn, i = .call nnn) ∨ (PopEffect s t ∧ i = .ret)) := by
  cases i with
  | ldBVx x =>
    rcases storeAtI_cases (.ldBVx x) (bcdDigits (s.reg x)) s.i s with ⟨c, a, -, h⟩ | ⟨h1, h2⟩
    · exact ⟨_, rfl, .inr (.inl ⟨c, a, h, nofun⟩)⟩
    · exact ⟨_, rfl, .inr (.inr (.inr (.inl ⟨⟨_, _, h1, h2⟩, .inl ⟨x, rfl⟩⟩)))⟩
  | storeRegs x =>
    rcases storeAtI_cases (.storeRegs x) (regsUpTo x s) (indexAfter hardware.loadStoreIndex x s.i) s with
      ⟨c, a, -, h⟩ | ⟨h1, h2⟩
    · exact ⟨_, rfl, .inr (.inl ⟨c, a, h, nofun⟩)⟩
    · exact ⟨_, rfl, .inr (.inr (.inr (.inl ⟨⟨_, _, h1, h2⟩, .inr ⟨x, rfl⟩⟩)))⟩
  | loadRegs x =>
    simp only [exec, execLoadRegs]
    cases h : loadFault s.i.toNat (x.toNat + 1) with
    | some ca => exact ⟨_, rfl, .inr (.inl ⟨ca.1, ca.2, rfl, nofun⟩)⟩
    | none =>
      refine ⟨_, rfl, .inl ⟨?_, nofun⟩⟩
      rw [setRegs_frame]
      exact ⟨_, _, _, _, _, _, _, rfl⟩
  | drw x y n =>
    simp only [exec, execDrw]
    cases h : loadFault s.i.toNat n.toNat with
    | some ca => exact ⟨_, rfl, .inr (.inl ⟨ca.1, ca.2, rfl, nofun⟩)⟩
    | none => exact ⟨_, rfl, .inl ⟨⟨_, _, _, _, _, _, _, rfl⟩, nofun⟩⟩
  | call nnn =>
    simp only [exec, execCall, State.push]
    by_cases h : s.sp.val < 16
    · rw [dif_pos h]
      exact ⟨_, rfl, .inr (.inr (.inr (.inr (.inl ⟨⟨h, _, rfl⟩, nnn, rfl⟩))))⟩
    · rw [dif_neg h]
      exact ⟨_, rfl, .inr (.inl ⟨_, _, rfl, nofun⟩)⟩
  | ret =>
    simp only [exec, execRet, State.pop]
    by_cases h : 0 < s.sp.val
    · rw [dif_pos h]
      exact ⟨_, rfl, .inr (.inr (.inr (.inr (.inr ⟨⟨h, rfl⟩, trivial⟩))))⟩
    · rw [dif_neg h]
      exact ⟨_, rfl, .inr (.inl ⟨_, _, rfl, nofun⟩)⟩
  | ldVxK x => exact ⟨_, rfl, .inr (.inr (.inl ⟨x, rfl, rfl⟩))⟩
  | _ => exact ⟨_, rfl, .inl ⟨⟨_, _, _, _, _, _, _, rfl⟩, nofun⟩⟩

/-- A run of one step more: the host's `run` unfolds at a step that answers a next state. -/
theorem core_run_succ (n : Nat) (s t : State) (h : step s = .next t) :
    Sys2Proof.core.run (n + 1) s = Sys2Proof.core.run n t := by
  have ht : Sys2Proof.core.step s = .next t := h
  exact (Host.Core.run.eq_2 Sys2Proof.core s n).trans (by rw [ht])

/-- Everything a running cycle can do (40_execution_cycle.md R142): a fetch fault, the fault of an unknown word, or one
instruction at an address a fetch accepts. -/
theorem runInstruction_cases (s : State) :
    (∃ c a, fetchFault s.pc = some (c, a) ∧ runInstruction s = .next (raise s c 0 a)) ∨
    (fetchFault s.pc = none ∧ ∃ w, decode (fetchWord s) = .unknown w ∧
      runInstruction s = .next (raise s .unknownInstruction w 0)) ∨
    (fetchFault s.pc = none ∧ ∃ i, decode (fetchWord s) = .known i ∧ runInstruction s = exec i s) := by
  unfold runInstruction
  cases h : fetchFault s.pc with
  | some ca => exact .inl ⟨ca.1, ca.2, rfl, rfl⟩
  | none =>
    cases hd : decode (fetchWord s) with
    | known i => exact .inr (.inr ⟨rfl, i, rfl, rfl⟩)
    | unknown w => exact .inr (.inl ⟨rfl, w, rfl, rfl⟩)

/-- Everything a poll can do (40_execution_cycle.md R143). -/
theorem poll_cases (s : State) :
    (leastKey s.keys = none ∧ poll s = s) ∨
    (∃ k, leastKey s.keys = some k ∧
      poll s = { s with v := (s.setReg s.w (k.setWidth 8)).v, pc := s.pc + 2, engine := .running }) := by
  unfold poll
  cases h : leastKey s.keys with
  | none => exact .inl ⟨rfl, rfl⟩
  | some k => exact .inr ⟨k, rfl, rfl⟩

/-- An address a fetch accepts is even and at most 0xFFE (20_memory.md R77). -/
theorem fetchFault_none (a : Word) : fetchFault a = none ↔ a.toNat % 2 = 0 ∧ a.toNat ≤ 0xFFE := by
  unfold fetchFault
  by_cases h1 : 0xFFF < a.toNat + 1
  · simp [h1]; omega
  · by_cases h2 : a.toNat % 2 = 1
    · have : a.getLsbD 0 = true := by simp [BitVec.getLsbD, Nat.testBit_zero, h2]
      rw [if_neg h1, if_pos this]
      simp [h2]
    · have : a.getLsbD 0 = false := by simp [BitVec.getLsbD, Nat.testBit_zero, h2]
      rw [if_neg h1, if_neg (by rw [this]; decide)]
      simp; omega

theorem fetchable_iff (a : Word) : fetchable a = true ↔ a.toNat % 2 = 0 ∧ a.toNat ≤ 0xFFE := by
  rw [← fetchFault_none, fetchable, Option.isNone_iff_eq_none]

end Sys2Proof.Machine
end

