-- ==== Sys2Proof/Laws/PerInstr.lean ====
section
/-! SUPPORT. Statements made instruction by instruction. Family RowMatch: the encoder's word, laid out by
spec/30_encoding.md R102, is a word of the instruction's own row of R104, which was transcribed apart from it. -/

namespace Sys2Proof.Laws

/-- What a row's mask keeps of a word, format by format. -/
theorem mask_nnn (o : Nibble) (a : Addr12) : (o ++ a : Word) &&& 0xF000#16 = o ++ 0#12 := by
  apply BitVec.eq_of_getLsbD_eq; intro i hi
  simp only [BitVec.getLsbD_and, bit_nnn]
  interval_cases i <;> simp

theorem mask_xkk (o x : Nibble) (k : Byte) : (o ++ x ++ k : Word) &&& 0xF000#16 = o ++ 0#12 := by
  apply BitVec.eq_of_getLsbD_eq; intro i hi
  simp only [BitVec.getLsbD_and, bit_nnn, bit_xkk]
  interval_cases i <;> simp

theorem mask_x (o x : Nibble) (k : Byte) : (o ++ x ++ k : Word) &&& 0xF0FF#16 = o ++ 0#4 ++ k := by
  apply BitVec.eq_of_getLsbD_eq; intro i hi
  simp only [BitVec.getLsbD_and, bit_xkk]
  interval_cases i <;> simp

theorem mask_xyn (o x y n : Nibble) : (o ++ x ++ y ++ n : Word) &&& 0xF000#16 = o ++ 0#12 := by
  apply BitVec.eq_of_getLsbD_eq; intro i hi
  simp only [BitVec.getLsbD_and, bit_nnn, bit_xyn]
  interval_cases i <;> simp

theorem mask_xy (o x y n : Nibble) : (o ++ x ++ y ++ n : Word) &&& 0xF00F#16 = o ++ 0#4 ++ 0#4 ++ n := by
  apply BitVec.eq_of_getLsbD_eq; intro i hi
  simp only [BitVec.getLsbD_and, bit_xyn]
  interval_cases i <;> simp

namespace RowMatch

/-- The instruction's word is a word of the instruction's row, and the row is one of the table's. -/
def Statement (i : Instr) : Prop := i.row.holds (encode i) = true ∧ i.row ∈ opcodeTable

theorem cls : Statement .cls := ⟨by decide, List.mem_map.2 ⟨.cls, by decide, rfl⟩⟩

theorem ret : Statement .ret := ⟨by decide, List.mem_map.2 ⟨.ret, by decide, rfl⟩⟩

theorem jp (nnn : Addr12) : Statement (.jp nnn) :=
  ⟨by simp [Instr.row, Row.holds, encode, mask_nnn], List.mem_map.2 ⟨.jp 0, by decide, rfl⟩⟩

theorem call (nnn : Addr12) : Statement (.call nnn) :=
  ⟨by simp [Instr.row, Row.holds, encode, mask_nnn], List.mem_map.2 ⟨.call 0, by decide, rfl⟩⟩

theorem seImm (x : Nibble) (kk : Byte) : Statement (.seImm x kk) :=
  ⟨by simp [Instr.row, Row.holds, encode, mask_xkk], List.mem_map.2 ⟨.seImm 0 0, by decide, rfl⟩⟩

theorem sneImm (x : Nibble) (kk : Byte) : Statement (.sneImm x kk) :=
  ⟨by simp [Instr.row, Row.holds, encode, mask_xkk], List.mem_map.2 ⟨.sneImm 0 0, by decide, rfl⟩⟩

theorem seReg (x y : Nibble) : Statement (.seReg x y) :=
  ⟨by simp [Instr.row, Row.holds, encode, mask_xy], List.mem_map.2 ⟨.seReg 0 0, by decide, rfl⟩⟩

theorem ldImm (x : Nibble) (kk : Byte) : Statement (.ldImm x kk) :=
  ⟨by simp [Instr.row, Row.holds, encode, mask_xkk], List.mem_map.2 ⟨.ldImm 0 0, by decide, rfl⟩⟩

theorem addImm (x : Nibble) (kk : Byte) : Statement (.addImm x kk) :=
  ⟨by simp [Instr.row, Row.holds, encode, mask_xkk], List.mem_map.2 ⟨.addImm 0 0, by decide, rfl⟩⟩

theorem ldReg (x y : Nibble) : Statement (.ldReg x y) :=
  ⟨by simp [Instr.row, Row.holds, encode, mask_xy], List.mem_map.2 ⟨.ldReg 0 0, by decide, rfl⟩⟩

theorem orReg (x y : Nibble) : Statement (.orReg x y) :=
  ⟨by simp [Instr.row, Row.holds, encode, mask_xy], List.mem_map.2 ⟨.orReg 0 0, by decide, rfl⟩⟩

theorem andReg (x y : Nibble) : Statement (.andReg x y) :=
  ⟨by simp [Instr.row, Row.holds, encode, mask_xy], List.mem_map.2 ⟨.andReg 0 0, by decide, rfl⟩⟩

theorem xorReg (x y : Nibble) : Statement (.xorReg x y) :=
  ⟨by simp [Instr.row, Row.holds, encode, mask_xy], List.mem_map.2 ⟨.xorReg 0 0, by decide, rfl⟩⟩

theorem addReg (x y : Nibble) : Statement (.addReg x y) :=
  ⟨by simp [Instr.row, Row.holds, encode, mask_xy], List.mem_map.2 ⟨.addReg 0 0, by decide, rfl⟩⟩

theorem subReg (x y : Nibble) : Statement (.subReg x y) :=
  ⟨by simp [Instr.row, Row.holds, encode, mask_xy], List.mem_map.2 ⟨.subReg 0 0, by decide, rfl⟩⟩

theorem shr (x y : Nibble) : Statement (.shr x y) :=
  ⟨by simp [Instr.row, Row.holds, encode, mask_xy], List.mem_map.2 ⟨.shr 0 0, by decide, rfl⟩⟩

theorem subnReg (x y : Nibble) : Statement (.subnReg x y) :=
  ⟨by simp [Instr.row, Row.holds, encode, mask_xy], List.mem_map.2 ⟨.subnReg 0 0, by decide, rfl⟩⟩

theorem shl (x y : Nibble) : Statement (.shl x y) :=
  ⟨by simp [Instr.row, Row.holds, encode, mask_xy], List.mem_map.2 ⟨.shl 0 0, by decide, rfl⟩⟩

theorem sneReg (x y : Nibble) : Statement (.sneReg x y) :=
  ⟨by simp [Instr.row, Row.holds, encode, mask_xy], List.mem_map.2 ⟨.sneReg 0 0, by decide, rfl⟩⟩

theorem ldI (nnn : Addr12) : Statement (.ldI nnn) :=
  ⟨by simp [Instr.row, Row.holds, encode, mask_nnn], List.mem_map.2 ⟨.ldI 0, by decide, rfl⟩⟩

theorem jpV0 (nnn : Addr12) : Statement (.jpV0 nnn) :=
  ⟨by simp [Instr.row, Row.holds, encode, mask_nnn], List.mem_map.2 ⟨.jpV0 0, by decide, rfl⟩⟩

theorem rnd (x : Nibble) (kk : Byte) : Statement (.rnd x kk) :=
  ⟨by simp [Instr.row, Row.holds, encode, mask_xkk], List.mem_map.2 ⟨.rnd 0 0, by decide, rfl⟩⟩

theorem drw (x y n : Nibble) : Statement (.drw x y n) :=
  ⟨by simp [Instr.row, Row.holds, encode, mask_xyn], List.mem_map.2 ⟨.drw 0 0 0, by decide, rfl⟩⟩

theorem skp (x : Nibble) : Statement (.skp x) :=
  ⟨by simp [Instr.row, Row.holds, encode, mask_x], List.mem_map.2 ⟨.skp 0, by decide, rfl⟩⟩

theorem sknp (x : Nibble) : Statement (.sknp x) :=
  ⟨by simp [Instr.row, Row.holds, encode, mask_x], List.mem_map.2 ⟨.sknp 0, by decide, rfl⟩⟩

theorem ldVxDt (x : Nibble) : Statement (.ldVxDt x) :=
  ⟨by simp [Instr.row, Row.holds, encode, mask_x], List.mem_map.2 ⟨.ldVxDt 0, by decide, rfl⟩⟩

theorem ldVxK (x : Nibble) : Statement (.ldVxK x) :=
  ⟨by simp [Instr.row, Row.holds, encode, mask_x], List.mem_map.2 ⟨.ldVxK 0, by decide, rfl⟩⟩

theorem ldDtVx (x : Nibble) : Statement (.ldDtVx x) :=
  ⟨by simp [Instr.row, Row.holds, encode, mask_x], List.mem_map.2 ⟨.ldDtVx 0, by decide, rfl⟩⟩

theorem ldStVx (x : Nibble) : Statement (.ldStVx x) :=
  ⟨by simp [Instr.row, Row.holds, encode, mask_x], List.mem_map.2 ⟨.ldStVx 0, by decide, rfl⟩⟩

theorem addIVx (x : Nibble) : Statement (.addIVx x) :=
  ⟨by simp [Instr.row, Row.holds, encode, mask_x], List.mem_map.2 ⟨.addIVx 0, by decide, rfl⟩⟩

theorem ldFVx (x : Nibble) : Statement (.ldFVx x) :=
  ⟨by simp [Instr.row, Row.holds, encode, mask_x], List.mem_map.2 ⟨.ldFVx 0, by decide, rfl⟩⟩

theorem ldBVx (x : Nibble) : Statement (.ldBVx x) :=
  ⟨by simp [Instr.row, Row.holds, encode, mask_x], List.mem_map.2 ⟨.ldBVx 0, by decide, rfl⟩⟩

theorem storeRegs (x : Nibble) : Statement (.storeRegs x) :=
  ⟨by simp [Instr.row, Row.holds, encode, mask_x], List.mem_map.2 ⟨.storeRegs 0, by decide, rfl⟩⟩

theorem loadRegs (x : Nibble) : Statement (.loadRegs x) :=
  ⟨by simp [Instr.row, Row.holds, encode, mask_x], List.mem_map.2 ⟨.loadRegs 0, by decide, rfl⟩⟩

end RowMatch

end Sys2Proof.Laws
end

