-- ==== Sys2Proof/Tests/Slice0.lean ====
section
/-! SUPPORT. The model's own tests. The expected values are those of spec/95_test_vectors.md (the vector is named beside
each test) or of R104's patterns, worked out by hand; then a witness for the hypotheses of each statement. -/

namespace Sys2Proof.Tests

open Sys2Proof.Machine Sys2Proof.Claims

/-- The next state; the state itself where a step stops. -/
def after (s : State) : State :=
  match step s with
  | .next t => t
  | _ => s

/-- The step answers a next state. -/
def runs (s : State) : Bool :=
  match step s with
  | .next _ => true
  | _ => false

/-- The reset state with one instruction word at 0x200, some registers and `I` set. -/
def start (word : Nat) (regs : List (Nibble × Byte) := []) (i : Word := 0) : State :=
  regs.foldl (fun s p => s.setReg p.1 p.2) ((State.reset.setI i).withFetchWord 16 word)

/-- The reset state with the events still to come. -/
def scripted (events : List HostEvent) : State :=
  { State.reset with host := { State.reset.host with script := events } }

/-- A state in HaltedOnFault: 00EE on an empty stack has just faulted. -/
def halted : State := faulted State.reset .stackUnderflow 0x00EE 0

/-- The fault record after the next step, where that step halts the engine and keeps `PC`. -/
def faultOf (s : State) : Option (FaultCode × Word × Word × Word) :=
  let t := after s
  if t.engine = .haltedOnFault ∧ t.pc = s.pc then t.fr.code.map fun c => (c, t.fr.pc, t.fr.word, t.fr.addr) else none

/-- The set pixels of one row, from the left. -/
def rowOn (s : State) (r : Fin 32) : List Nat :=
  (List.range 64).filter fun c => s.fb.get ⟨r, Fin.ofNat 64 c⟩

/-! ### Well-formedness: a word no row of R104 matches is refused, by the check and by the decoder -/

theorem test_illegal_0 : wellFormedWord 0x0000 = false ∧ decode 0x0000 = .unknown 0x0000 := by decide
theorem test_illegal_sys : wellFormedWord 0x0123 = false ∧ decode 0x0123 = .unknown 0x0123 := by decide
theorem test_illegal_5 : wellFormedWord 0x5121 = false ∧ decode 0x5121 = .unknown 0x5121 := by decide
theorem test_illegal_8 : wellFormedWord 0x8008 = false ∧ decode 0x8008 = .unknown 0x8008 := by decide
theorem test_illegal_8F : wellFormedWord 0x800F = false ∧ decode 0x800F = .unknown 0x800F := by decide
theorem test_illegal_9 : wellFormedWord 0x9121 = false ∧ decode 0x9121 = .unknown 0x9121 := by decide
theorem test_illegal_E : wellFormedWord 0xE09F = false ∧ decode 0xE09F = .unknown 0xE09F := by decide
theorem test_illegal_F : wellFormedWord 0xF0FF = false ∧ decode 0xF0FF = .unknown 0xF0FF := by decide
theorem test_legal_samples : rowSamples.all (fun i => wellFormedWord (encode i)) = true := by decide
theorem test_no_two_rows_overlap :
    opcodeTable.Pairwise fun r q => r.fixed &&& q.mask ≠ q.fixed &&& r.mask := by decide

/-! ### Decoding: a word of every row, written out from R104's pattern -/

theorem test_decode_family_0 : decode 0x00E0 = .known .cls ∧ decode 0x00EE = .known .ret := by decide
theorem test_decode_families_1_to_4 :
    decode 0x1ABC = .known (.jp 0xABC) ∧ decode 0x2300 = .known (.call 0x300) ∧
    decode 0x3A05 = .known (.seImm 0xA 0x05) ∧ decode 0x4A05 = .known (.sneImm 0xA 0x05) := by decide
theorem test_decode_families_5_to_7 :
    decode 0x5120 = .known (.seReg 1 2) ∧ decode 0x6A5C = .known (.ldImm 0xA 0x5C) ∧
    decode 0x7105 = .known (.addImm 1 0x05) := by decide
theorem test_decode_family_8 :
    decode 0x8120 = .known (.ldReg 1 2) ∧ decode 0x8121 = .known (.orReg 1 2) ∧
    decode 0x8122 = .known (.andReg 1 2) ∧ decode 0x8113 = .known (.xorReg 1 1) ∧
    decode 0x8AB4 = .known (.addReg 0xA 0xB) ∧ decode 0x8F15 = .known (.subReg 0xF 1) ∧
    decode 0x8126 = .known (.shr 1 2) ∧ decode 0x8127 = .known (.subnReg 1 2) ∧
    decode 0x812E = .known (.shl 1 2) := by decide
theorem test_decode_families_9_to_C :
    decode 0x9120 = .known (.sneReg 1 2) ∧ decode 0xA123 = .known (.ldI 0x123) ∧
    decode 0xB300 = .known (.jpV0 0x300) ∧ decode 0xC30F = .known (.rnd 3 0x0F) := by decide
theorem test_decode_families_D_E :
    decode 0xD125 = .known (.drw 1 2 5) ∧ decode 0xE19E = .known (.skp 1) ∧
    decode 0xE1A1 = .known (.sknp 1) := by decide
theorem test_decode_family_F :
    decode 0xF107 = .known (.ldVxDt 1) ∧ decode 0xF30A = .known (.ldVxK 3) ∧
    decode 0xF115 = .known (.ldDtVx 1) ∧ decode 0xF218 = .known (.ldStVx 2) ∧
    decode 0xF11E = .known (.addIVx 1) ∧ decode 0xF529 = .known (.ldFVx 5) ∧
    decode 0xF233 = .known (.ldBVx 2) ∧ decode 0xF255 = .known (.storeRegs 2) ∧
    decode 0xF165 = .known (.loadRegs 1) := by decide
/-- R100: big-endian, and the rest of the bytes is left over. -/
theorem test_decode_bytes : decodeBytes [0x8A, 0xB4, 0x12] = .known (.addReg 0xA 0xB) [0x12] ∧
    decodeBytes [0x51, 0x21, 0x00] = .unknown 0x5121 ∧ decodeBytes [0x8A] = .truncated := by decide
theorem test_decode_table_word :
    (rowSamples.all fun i => decide (decodeTableWord 16 (encode i).toNat = some i)) = true ∧
    decodeTableWord 16 0x5121 = none := by decide
/-- The placed word is the one the next step fetches, also from a state with other events first. -/
theorem test_with_fetch_word :
    fetchWord (State.reset.withFetchWord 16 0x8AB4) = 0x8AB4 ∧
    nextEvent ((scripted [.tick]).withFetchWord 16 0x8AB4) = .cycle := by decide

/-! ### Arithmetic and bitwise -/

/-- A1. -/
theorem test_ldImm : let t := after (start 0x6A5C); t.reg 0xA = 0x5C ∧ t.pc = 0x202 := by decide
/-- A2. -/
theorem test_addImm : let t := after (start 0x7105 [(1, 0xFE)]); t.reg 1 = 0x03 ∧ t.reg 0xF = 0 := by decide
/-- A3. -/
theorem test_addImm_VF : (after (start 0x7F01 [(0xF, 0xFF)])).reg 0xF = 0x00 := by decide
/-- A4. -/
theorem test_ldReg : let t := after (start 0x8120 [(2, 0x99)]); t.reg 1 = 0x99 ∧ t.reg 2 = 0x99 := by decide
/-- A5. -/
theorem test_orReg : let t := after (start 0x8121 [(1, 0xF0), (2, 0x0F), (0xF, 0x55)])
    t.reg 1 = 0xFF ∧ t.reg 0xF = 0x55 := by decide
/-- A6. -/
theorem test_andReg : let t := after (start 0x8122 [(1, 0xF0), (2, 0x3C), (0xF, 0x55)])
    t.reg 1 = 0x30 ∧ t.reg 0xF = 0x55 := by decide
/-- A7. -/
theorem test_xorReg : let t := after (start 0x8113 [(1, 0x5A), (0xF, 0x55)])
    t.reg 1 = 0 ∧ t.reg 0xF = 0x55 := by decide
/-- W3 and A8. -/
theorem test_addReg : let t := after (start 0x8124 [(1, 0x80), (2, 0x80)]); t.reg 1 = 0 ∧ t.reg 0xF = 1 := by decide
/-- A10: the flag overwrites the result. -/
theorem test_addReg_VF : (after (start 0x8F14 [(0xF, 0x01), (1, 0xFF)])).reg 0xF = 1 := by decide
/-- W4. -/
theorem test_subReg : let t := after (start 0x8125 [(1, 0x05), (2, 0x07)]); t.reg 1 = 0xFE ∧ t.reg 0xF = 0 := by decide
/-- W4: equal operands give no borrow. -/
theorem test_subReg_equal : let t := after (start 0x8125 [(1, 7), (2, 7)]); t.reg 1 = 0 ∧ t.reg 0xF = 1 := by decide
/-- A14. -/
theorem test_subnReg : let t := after (start 0x8127 [(1, 0x05), (2, 0x07)]); t.reg 1 = 2 ∧ t.reg 0xF = 1 := by decide
/-- A15. -/
theorem test_subnReg_borrow : let t := after (start 0x8127 [(1, 7), (2, 5)]); t.reg 1 = 0xFE ∧ t.reg 0xF = 0 := by
  decide
/-- A17: Y ignored. -/
theorem test_shr : let t := after (start 0x8126 [(1, 0x04), (2, 0xFF)]); t.reg 1 = 2 ∧ t.reg 0xF = 0 := by decide
/-- A18. -/
theorem test_shr_VF : (after (start 0x8F06 [(0xF, 0x03)])).reg 0xF = 1 := by decide
/-- W5. -/
theorem test_shl : let t := after (start 0x810E [(1, 0x81)]); t.reg 1 = 2 ∧ t.reg 0xF = 1 := by decide
/-- A19. -/
theorem test_shl_no_carry : let t := after (start 0x810E [(1, 0x40)]); t.reg 1 = 0x80 ∧ t.reg 0xF = 0 := by decide

/-! ### Compare and skip -/

/-- S1, S2. -/
theorem test_seImm : (after (start 0x3A05 [(0xA, 5)])).pc = 0x204 ∧ (after (start 0x3A05 [(0xA, 6)])).pc = 0x202 := by
  decide
/-- S3, S4. -/
theorem test_sneImm : (after (start 0x4A05 [(0xA, 5)])).pc = 0x202 ∧ (after (start 0x4A05 [(0xA, 6)])).pc = 0x204 := by
  decide
/-- S5. -/
theorem test_seReg : (after (start 0x5120 [(1, 3), (2, 3)])).pc = 0x204 := by decide
/-- S7, S8. -/
theorem test_sneReg : (after (start 0x9120 [(1, 3), (2, 3)])).pc = 0x202 ∧
    (after (start 0x9120 [(1, 3), (2, 4)])).pc = 0x204 := by decide

/-! ### Index and memory -/

/-- M1. -/
theorem test_ldI : (after (start 0xA123)).i = 0x123 := by decide
/-- M2, M3. -/
theorem test_addIVx : (after (start 0xF11E [(1, 1)] 0x0FFF)).i = 0x1000 ∧ (after (start 0xF11E [(1, 1)] 0xFFFF)).i = 0 := by
  decide
/-- M4, M5. -/
theorem test_ldFVx : (after (start 0xF529 [(5, 0x0B)])).i = 0x037 ∧ (after (start 0xF529 [(5, 0x1A)])).i = 0x032 := by decide
/-- M7. -/
theorem test_ldBVx : let t := after (start 0xF233 [(2, 254)] 0x300)
    [0x300, 0x301, 0x302].map t.byteAt = [2, 5, 4] ∧ t.i = 0x300 ∧ t.pc = 0x202 := by decide
/-- M9, M10. -/
theorem test_ldBVx_faults : faultOf (start 0xF233 [(2, 1)] 0xFFE) = some (.memOutOfRange, 0x200, 0xF233, 0x1000) ∧
    faultOf (start 0xF233 [(2, 1)] 0x04E) = some (.fontWrite, 0x200, 0xF233, 0x04E) := by decide
/-- M11. -/
theorem test_storeRegs : let t := after (start 0xF255 [(0, 0x11), (1, 0x22), (2, 0x33), (3, 0x44)] 0x300)
    [0x300, 0x301, 0x302, 0x303].map t.byteAt = [0x11, 0x22, 0x33, 0] ∧ t.i = 0x300 := by decide
/-- M13, M14. -/
theorem test_storeRegs_font : faultOf (start 0xF055 [(0, 1)] 0x04F) = some (.fontWrite, 0x200, 0xF055, 0x04F) ∧
    (after (start 0xF055 [(0, 1)] 0x050)).byteAt 0x050 = 1 := by decide
/-- M18, with one register more: the font is readable. -/
theorem test_loadRegs : let t := after (start 0xF165)
    t.reg 0 = 0xF0 ∧ t.reg 1 = 0x90 ∧ t.reg 2 = 0 ∧ t.i = 0 := by decide
/-- M16, M17. -/
theorem test_loadRegs_range : runs (start 0xFF65 [] 0xFF0) = true ∧
    (after (start 0xFF65 [] 0xFF0)).engine = .running ∧
    faultOf (start 0xFF65 [] 0xFF1) = some (.memOutOfRange, 0x200, 0xFF65, 0x1000) := by decide

/-! ### Display and random -/

/-- D2: a zero mask gives zero, whatever the byte drawn. -/
theorem test_rnd_zero_mask : (after (start 0xC300)).reg 3 = 0 :=
  show Config.randByte 0 &&& 0#8 = 0#8 from BitVec.and_zero
/-- R250: one byte is drawn. -/
theorem test_rnd_draws : (after (start 0xC30F)).host.draws = 1 := by decide
/-- D4: glyph "0". -/
theorem test_drw_glyph : let t := after (start 0xD015)
    [0, 1, 2, 3, 4, 5].map (fun r => rowOn t (Fin.ofNat 32 r)) =
      [[0, 1, 2, 3], [0, 3], [0, 3], [0, 3], [0, 1, 2, 3], []] ∧ t.reg 0xF = 0 := by decide
/-- D6: the right edge and the bottom row, the sprite byte 0xC0 placed at 0x300. -/
theorem test_drw_wraps :
    let s := start 0xD011 [(0, 0x3F), (1, 0x1F)] 0x300
    let t := after (s.setMem (Memory.write s.mem 0x300 0xC0))
    rowOn t 31 = [0, 63] ∧ rowOn t 0 = [] ∧ t.reg 0xF = 0 := by decide
/-- D3, on a screen with a glyph on it. -/
theorem test_cls : let t := after ((after (start 0xD015)).withFetchWord 16 0x00E0)
    rowOn t 0 = [] ∧ rowOn t 4 = [] ∧ t.pc = 0x204 := by decide
/-- The flag of a second draw: every pixel of the sprite was set before the first, so the first draw unsets them all and
the second collides with none. R254's sentence that it "writes VF=1 if the sprite has any set bit" fails here (log entry 12). -/
theorem test_second_draw_without_collision :
    let first := after ((after (start 0xD015)).withFetchWord 16 0xD015)
    let second := after (first.withFetchWord 16 0xD015)
    first.reg 0xF = 1 ∧ second.reg 0xF = 0 := by decide

/-! ### Control transfer -/

/-- C1, and C2 in two steps: the odd target faults at the next fetch. -/
theorem test_jp : (after (start 0x1ABC)).pc = 0xABC ∧
    faultOf (after (start 0x1201)) = some (.pcMisaligned, 0x201, 0, 0x201) := by decide
/-- C3. -/
theorem test_call : let t := after (start 0x2300); t.pc = 0x300 ∧ t.sp = 1 ∧ t.stack[0] = 0x202 := by decide
/-- C4. -/
theorem test_call_overflow : faultOf { start 0x2300 with sp := 16 } = some (.stackOverflow, 0x200, 0x2300, 0) := by decide
/-- C6, by way of C3. -/
theorem test_ret : let t := after ((after (start 0x2300)).withFetchWord 16 0x00EE); t.pc = 0x202 ∧ t.sp = 0 := by decide
/-- C7, and P5 (a). -/
theorem test_ret_underflow : faultOf (start 0x00EE) = some (.stackUnderflow, 0x200, 0x00EE, 0) := by decide
/-- C9, C10. -/
theorem test_jpV0 : (after (start 0xBFFE [(0, 2)])).pc = 0x1000 ∧ (after (start 0xB201 [(2, 0x10)])).pc = 0x201 := by decide
/-- C11. -/
theorem test_sys : faultOf (start 0x0123) = some (.unknownInstruction, 0x200, 0x0123, 0) := by decide

/-! ### Timers and keys -/

/-- T1. -/
theorem test_ldVxDt : (after { start 0xF107 with dt := 0x3C }).reg 1 = 0x3C := by decide
/-- T2. -/
theorem test_ldDtVx : let t := after (start 0xF115 [(1, 0x3C)]); t.dt = 0x3C ∧ t.st = 0 := by decide
/-- T3. -/
theorem test_ldStVx : let t := after (start 0xF218 [(2, 5)]); t.st = 5 ∧ t.dt = 0 := by decide
/-- T7, T8. -/
theorem test_skp : (after { start 0xE19E [(1, 5)] with keys := 0x0020 }).pc = 0x204 ∧
    (after (start 0xE19E [(1, 5)])).pc = 0x202 := by decide
/-- T9, T10. -/
theorem test_sknp : (after (start 0xE1A1 [(1, 5)])).pc = 0x204 ∧
    (after { start 0xE1A1 [(1, 0x15)] with keys := 0x0020 }).pc = 0x202 := by decide
/-- T11. -/
theorem test_ldVxK : let t := after { start 0xF30A with keys := 0xFFFF }
    t.engine = .waitingForKey ∧ t.w = 3 ∧ t.pc = 0x200 ∧ t.reg 3 = 0 := by decide
/-- T12: the least key of 4 and 9. -/
theorem test_poll : let t := after { after (start 0xF30A) with keys := 0x0210 }
    t.reg 3 = 4 ∧ t.pc = 0x202 ∧ t.engine = .running := by decide

/-! ### Fetch, host calls -/

/-- X2, X3. -/
theorem test_fetch_edge : faultOf { State.reset with pc := 0xFFE } = some (.unknownInstruction, 0xFFE, 0, 0) ∧
    faultOf { State.reset with pc := 0xFFF } = some (.memOutOfRange, 0xFFF, 0, 0x1000) := by decide
/-- X1, X5. -/
theorem test_fetch_odd_and_far : faultOf { State.reset with pc := 0x201 } = some (.pcMisaligned, 0x201, 0, 0x201) ∧
    faultOf { State.reset with pc := 0xFFFF } = some (.memOutOfRange, 0xFFFF, 0, 0xFFFF) := by decide
/-- T4, T6. -/
theorem test_tick : let t := after { scripted [.tick] with st := 2 }
    t.dt = 0 ∧ t.st = 1 ∧ (after { scripted [.tick] with dt := 7, engine := .haltedOnFault }).dt = 7 := by decide
/-- X7: from a halted state with a key down. -/
theorem test_reset : let t := after { scripted [.reset] with engine := .haltedOnFault, pc := 0x300, keys := 2 }
    t.engine = .running ∧ t.pc = 0x200 ∧ t.keys = 2 ∧ t.fr = FaultRecord.clear := by decide
/-- W10's ROM, loaded; a second load is refused. -/
theorem test_load : let t := after (scripted [.load [0x00, 0xE0, 0x12, 0x00], .load []])
    [0x200, 0x201, 0x202, 0x203, 0x204].map t.byteAt = [0x00, 0xE0, 0x12, 0x00, 0] ∧
    t.host.loadResult = some .ok ∧ runs t = false := by decide
theorem test_key_write : (after (scripted [.keyWrite 4 true])).keys = 0x0010 ∧
    (after { scripted [.keyWrite 4 false] with keys := 0x0210 }).keys = 0x0200 := by decide
/-- R310. -/
theorem test_fault_numbers : [FaultCode.memOutOfRange, .stackOverflow, .stackUnderflow, .unknownInstruction,
    .pcMisaligned, .fontWrite].map FaultCode.number = [1, 2, 3, 4, 5, 6] ∧ FaultRecord.clear.number = 0 := by decide

/-! ### Witnesses: a state and operands that meet all the hypotheses of each statement -/

theorem witness_EncodeOfDecode : decode 0x8AB4 = .known (.addReg 0xA 0xB) := by decide
theorem witness_WordDecodes : decode 0xD125 = .known (.drw 1 2 5) ∧ (Instr.row (.drw 1 2 5)) ∈ opcodeTable ∧
    (Instr.row (.drw 1 2 5)).holds 0xD125 = true ∧ decode 0xF0FF = .unknown 0xF0FF := by decide

/-- A running state whose next step is a cycle. -/
theorem running_start (w : Nat) : RunningCycle (start w) := ⟨rfl, rfl⟩

/-- Illegal words of every family, and the state that fetches one. -/
theorem witness_IllegalWords :
    (0x0123 : Word).toNat / 0x1000 = 0x0 ∧ (0x0123 : Word) ≠ 0x00E0 ∧ (0x0123 : Word) ≠ 0x00EE ∧
    (0x5121 : Word).toNat / 0x1000 = 0x5 ∧ (0x5121 : Word).toNat % 0x10 ≠ 0 ∧
    (0x8008 : Word).toNat % 0x10 ∈ [0x8, 0x9, 0xA, 0xB, 0xC, 0xD, 0xF] ∧
    (0xE09F : Word).toNat % 0x100 ∉ [0x9E, 0xA1] ∧
    (0xF0FF : Word).toNat % 0x100 ∉ [0x07, 0x0A, 0x15, 0x18, 0x1E, 0x29, 0x33, 0x55, 0x65] ∧
    let s := start 0x5121
    s.pc.toNat % 2 = 0 ∧ s.pc.toNat ≤ 0xFFE ∧ s.byteAt s.pc.toNat ++ s.byteAt (s.pc.toNat + 1) = 0x5121#16 := by decide
theorem witness_StepRuns :
    let s := start 0x6A5C
    s.pc.toNat % 2 = 0 ∧ s.pc.toNat ≤ 0xFFE ∧
    decode (s.byteAt s.pc.toNat ++ s.byteAt (s.pc.toNat + 1)) = .known (.ldImm 0xA 0x5C) := by decide
/-- The last fetchable address, 0xFFE, and an unknown word there. -/
theorem witness_StepRuns_edge :
    let s : State := { State.reset with pc := 0xFFE }
    RunningCycle s ∧ s.pc.toNat % 2 = 0 ∧ s.pc.toNat ≤ 0xFFE ∧
    decode (s.byteAt s.pc.toNat ++ s.byteAt (s.pc.toNat + 1)) = .unknown 0 :=
  ⟨⟨rfl, rfl⟩, by decide, by decide, by decide⟩
theorem witness_FetchFaults :
    RunningCycle { State.reset with pc := 0xFFF } ∧ 0xFFF < (0xFFF : Word).toNat + 1 ∧
    RunningCycle { State.reset with pc := 0xFFD } ∧ (0xFFD : Word).toNat + 1 ≤ 0xFFF ∧ (0xFFD : Word).toNat % 2 = 1 :=
  ⟨⟨rfl, rfl⟩, by decide, ⟨rfl, rfl⟩, by decide, by decide⟩
theorem witness_SysWords :
    let s := start 0x0123
    (0x123 : Addr12) ≠ 0x0E0 ∧ (0x123 : Addr12) ≠ 0x0EE ∧ RunningCycle s ∧ s.pc.toNat % 2 = 0 ∧ s.pc.toNat ≤ 0xFFE ∧
    s.byteAt s.pc.toNat ++ s.byteAt (s.pc.toNat + 1) = wordNNN 0x0000 0x123 :=
  ⟨by decide, by decide, ⟨rfl, rfl⟩, by decide, by decide, by decide⟩
/-- The halted state, before a cycle, a tick, a latch write and a load. -/
theorem witness_Halted :
    let h (es : List HostEvent) : State := { halted with host := { halted.host with script := es } }
    halted.engine = .haltedOnFault ∧ nextEvent (h []) = .cycle ∧ nextEvent (h [.tick]) = .tick ∧
    nextEvent (h [.keyWrite 4 true]) ≠ .reset ∧ runs (h [.keyWrite 4 true]) = true ∧
    nextEvent (h [.load [1]]) ≠ .reset ∧ runs (h [.load [1]]) = true := by decide
/-- Every event, and for a cycle every engine state; a running cycle that starts a wait, one that faults, one that goes on. -/
theorem witness_EngineChanges :
    [scripted [.reset], scripted [.load [1]], scripted [.tick], scripted [.keyWrite 1 true], halted,
      { State.reset with engine := .waitingForKey }, { State.reset with engine := .waitingForKey, keys := 4 },
      start 0xF30A, start 0x00EE, start 0x6A5C].all runs = true ∧
    (after (start 0xF30A)).engine = .waitingForKey ∧ (after (start 0x00EE)).engine = .haltedOnFault ∧
    (after (start 0x6A5C)).engine = .running := by decide
theorem witness_FaultsArePrecise :
    let s := start 0xF055 [(0, 7)]
    step s = .next (after s) ∧ s.engine ≠ .haltedOnFault ∧ (after s).engine = .haltedOnFault :=
  ⟨rfl, by decide, by decide⟩
theorem witness_Tick :
    let halt : State := { halted with host := { halted.host with script := [.tick] } }
    let wait : State := { scripted [.tick] with engine := .waitingForKey, dt := 7 }
    nextEvent halt = .tick ∧ halt.engine = .haltedOnFault ∧ nextEvent wait = .tick ∧ wait.engine ≠ .haltedOnFault := by
  decide
theorem witness_Ticks :
    let s : State := { scripted [.tick, .tick, .cycle] with dt := 1, st := 9 }
    s.engine ≠ .haltedOnFault ∧ s.host.script = List.replicate 2 .tick ++ [.cycle] := by decide
theorem witness_Reset : nextEvent (scripted [.reset]) = .reset ∧ (80 : Nat) ≤ 80 := by decide
/-- Both sides of the size limit. -/
theorem witness_Load :
    (∀ bytes, nextEvent (scripted [.load bytes]) = .load bytes ∧
      (scripted [.load bytes]).host.loadAdmitted = true) ∧
    3584 < (List.replicate 3585 (1 : Byte)).length ∧ (List.replicate 3584 (1 : Byte)).length ≤ 3584 :=
  ⟨fun _ => ⟨rfl, rfl⟩, by rw [List.length_replicate]; decide, by rw [List.length_replicate]⟩
theorem witness_LoadWindow :
    let late : State := after (scripted [.cycle, .load [1]])
    [scripted [.reset], scripted [.load [1]], scripted [.cycle], scripted [.tick], scripted [.keyWrite 1 true]].all runs
      = true ∧ nextEvent late = .load [1] ∧ late.host.loadAdmitted = false := by decide
theorem witness_LatchWrite : nextEvent (scripted [.keyWrite 15 true]) = .keyWrite 15 true ∧
    nextEvent (scripted [.keyWrite 0 false]) = .keyWrite 0 false := by decide

/-- A state in a subroutine: one entry on the stack. -/
def inCall : State :=
  { State.reset with pc := 0x300, sp := 1, stack := State.reset.stack.set 0 0x202, mem := [(0x301, 0xE0)] }

theorem font_of_above (s : State) (h : ∀ c ∈ s.mem, 80 ≤ c.1) : FontIntact s := by
  intro a ha
  have ha : a < 80 := by simp [inFont, hardware] at ha; omega
  unfold State.byteAt
  generalize s.mem = m at h
  induction m with
  | nil => rfl
  | cons c m ih =>
    have h1 := h c (by simp)
    rw [Memory.read, if_neg (by omega)]
    exact ih fun d hd => h d (by simp [hd])

/-- A state that meets the invariant, deep in a run, and steps. -/
theorem witness_Invariant : Inv inCall ∧ step inCall = .next (after inCall) := by
  refine ⟨⟨by decide, font_of_above _ (by decide), by decide, by decide, by decide, by decide, ?_⟩, rfl⟩
  intro k hk
  have : k = 0 := by simp [inCall] at hk; omega
  subst this
  exact (⟨by decide, by decide, by decide⟩ : ReturnAddress 0x202)
/-- A halted state and a waiting state that meet the invariant. -/
theorem witness_Invariant_halted : Inv halted :=
  ⟨by decide, font_of_above _ (by decide), by decide, by decide, by decide, by decide,
    fun k hk => absurd hk (by simp [halted, faulted, State.reset])⟩
theorem witness_Invariant_waiting : Inv { State.reset with engine := .waitingForKey, w := 3 } :=
  ⟨by decide, font_of_above _ (by decide), by decide, by decide, by decide, by decide,
    fun k hk => absurd hk (by simp [State.reset])⟩
theorem witness_Font : FontIntact inCall ∧ step inCall = .next (after inCall) :=
  ⟨font_of_above _ (by decide), rfl⟩

/-- For every element, an instruction that changes it. -/
theorem witness_OnlyTheListed :
    let s : State := { start 0x0000 with i := 0x300, dt := 1 }
    (∃ t, exec (.ldImm 1 5) s = .next t ∧ t.v ≠ s.v) ∧ (∃ t, exec (.ldI 5) s = .next t ∧ t.i ≠ s.i) ∧
    (∃ t, exec (.call 5) s = .next t ∧ t.sp ≠ s.sp ∧ t.stack ≠ s.stack) ∧
    (∃ t, exec (.ldDtVx 0) s = .next t ∧ t.dt ≠ s.dt) ∧
    (∃ t, exec (.ldStVx 3) { s with v := s.v.set 3 9 } = .next t ∧ t.st ≠ s.st) ∧
    (∃ t, exec (.ldVxK 5) s = .next t ∧ t.w ≠ s.w) :=
  ⟨⟨_, rfl, by decide⟩, ⟨_, rfl, by decide⟩, ⟨_, rfl, by decide⟩, ⟨_, rfl, by decide⟩, ⟨_, rfl, by decide⟩,
    ⟨_, rfl, by decide⟩⟩
theorem witness_OnlyTheListed_memory :
    let s : State := { start 0xF033 with v := State.reset.v.set 0 7, i := 0x300 }
    step s = .next (after s) ∧ (after s).mem ≠ s.mem ∧ (after (start 0xD015)).fb ≠ (start 0xD015).fb :=
  ⟨rfl, by decide, by decide⟩
theorem witness_OnlyKeyTests : readsKeys (.ldVxK 3) = false ∧ ∃ t, exec (.ldVxK 3) State.reset = .next t :=
  ⟨by decide, _, rfl⟩
theorem witness_SelfJump : AtSelfJump 0x200 (start 0x1200) ∧ nextEvent (start 0x1200) = .cycle ∧
    AtSelfJump 0x200 { start 0x1200 with host := { State.reset.host with script := [.tick] } } :=
  ⟨⟨rfl, rfl, by decide, by decide⟩, rfl, rfl, rfl, by decide, by decide⟩

/-- FX33 at the four boundary values of `I`: 0x4F, 0x50, 0xFFD, 0xFFE. -/
theorem witness_Bcd : (0xFFF < (0xFFE : Word).toNat + 2) ∧ (0x4F : Word).toNat ≤ 0x4F ∧
    (0x50 ≤ (0x50 : Word).toNat ∧ (0x50 : Word).toNat + 2 ≤ 0xFFF) ∧
    (0x50 ≤ (0xFFD : Word).toNat ∧ (0xFFD : Word).toNat + 2 ≤ 0xFFF) := by decide
/-- FX55 and FX65 of V0 to VF: the last `I` that fits is 0xFF0. -/
theorem witness_StoreLoad : (0xFFF < (0xFF1 : Word).toNat + (15 : Nibble).toNat) ∧ (0x4F : Word).toNat ≤ 0x4F ∧
    (0x50 ≤ (0xFF0 : Word).toNat ∧ (0xFF0 : Word).toNat + (15 : Nibble).toNat ≤ 0xFFF) ∧
    (0 : Nibble).toNat ≤ (15 : Nibble).toNat := by decide
/-- A sprite past the end, one that just fits, and the empty one. -/
theorem witness_Draw : ¬ SpriteFits (start 0xD012 [] 0xFFF) 2 ∧ SpriteFits (start 0xD011 [] 0xFFF) 1 ∧
    SpriteFits (start 0xD010 [] 0xFFFF) 0 := by
  refine ⟨?_, .inr (by decide), .inl rfl⟩
  rintro (h | h)
  · exact absurd h (by decide)
  · exact absurd h (by decide)
/-- A covered pixel that was set, by way of D5. -/
theorem witness_Draw_collision : let s := after (start 0xD015)
    Covered s 0 1 5 ⟨0, 0⟩ ∧ s.fb.get ⟨0, 0⟩ = true :=
  ⟨⟨0, 0, by decide, by decide, by decide, by decide, by decide⟩, by decide⟩
theorem witness_DrawTwice : let s := start 0xD015
    SpriteFits s 5 ∧ ∃ t u, exec (.drw 0 1 5) s = .next t ∧ t.reg 0 = s.reg 0 ∧ t.reg 1 = s.reg 1 ∧ t.i = s.i ∧
      (∀ k, k < (5 : Nibble).toNat → t.byteAt (s.i.toNat + k) = s.byteAt (s.i.toNat + k)) ∧
      exec (.drw 0 1 5) t = .next u :=
  ⟨.inr (by decide), _, _, rfl, rfl, rfl, rfl, fun _ _ => rfl, rfl⟩
/-- The same draws, on pixels that were unset: a sprite with a set bit, and the empty one. -/
theorem witness_SecondDraw :
    (∀ q, Covered (start 0xD015) 0 1 5 q → (start 0xD015).fb.get q = false) ∧ HasSetBit (start 0xD015) 5 ∧
    ¬ HasSetBit (start 0xD010) 0 :=
  ⟨fun q _ => get_clear q, ⟨0, 0, by decide, by decide, by decide⟩, fun ⟨_, _, h, _⟩ => absurd h (by simp)⟩
theorem witness_Call : ({ State.reset with sp := 16 } : State).sp.val = 16 ∧
    ({ State.reset with sp := 15 } : State).sp.val < 16 := by decide
theorem witness_Return : State.reset.sp.val = 0 ∧ ({ State.reset with sp := 1 } : State).sp.val = 0 + 1 ∧
    ({ State.reset with sp := 16 } : State).sp.val = 15 + 1 := by decide
theorem witness_ReturnUndoes : ∃ t u, ({ State.reset with sp := 15 } : State).sp.val < 16 ∧
    exec (.call 0x300) { State.reset with sp := 15 } = .next t ∧ exec .ret { t with pc := 0x300 } = .next u :=
  ⟨_, _, by decide, rfl, rfl⟩
theorem witness_Seventeenth : (List.replicate 16 (0x200 : Addr12)).length = 16 ∧ State.reset.sp.val = 0 ∧
    State.reset.engine = .running := by decide
/-- The wait with no key, with the least and with the greatest key. -/
theorem witness_KeyWait :
    let s (k : Word) : State := { State.reset with engine := .waitingForKey, keys := k }
    nextEvent (s 0) = .cycle ∧ (s 0).engine = .waitingForKey ∧ (s 0).keys = 0 ∧
    (s 1).keys.getLsbD (0 : Nibble).toNat = true ∧ (s 0x8000).keys.getLsbD (15 : Nibble).toNat = true ∧
    (List.range 15).all (fun j => !(s 0x8000).keys.getLsbD j) = true := by decide

end Sys2Proof.Tests
end

section
/-! PROOFS. The statements of spec/10_state.md: which instruction writes which element of the state (R31 to R45), that
only the key tests read the Input Latch, and what the collaborator's write to the latch does (R45, R85). -/

namespace Sys2Proof.Proofs.StateElements

open Sys2Proof.Machine Sys2Proof.Claims

/-! ### A latch write (R45, R85) -/

/-- The single bit that a latch write of key `k` sets or clears. -/
theorem keyMask_getLsbD (k j : Nibble) : (1#16 <<< k.toNat).getLsbD j.toNat = decide (j = k) := by
  have hj : j.toNat < 16 := j.isLt
  rw [BitVec.getLsbD_shiftLeft, BitVec.getLsbD_one, Bool.eq_iff_iff]
  simp only [Bool.and_eq_true, Bool.not_eq_true', decide_eq_true_eq, decide_eq_false_iff_not, ← BitVec.toNat_inj]
  omega

/-- A latch write of key `k` leaves slot `k` as written and every other slot as it was. -/
theorem keyWrite_getLsbD (s : State) (k j : Nibble) (down : Bool) :
    (keyWrite k down s).keys.getLsbD j.toNat = if j = k then down else s.keys.getLsbD j.toNat := by
  have hj : j.toNat < 16 := j.isLt
  cases down with
  | true =>
    simp only [keyWrite, if_true, BitVec.getLsbD_or, keyMask_getLsbD]
    by_cases h : j = k <;> simp [h]
  | false =>
    simp only [keyWrite, Bool.false_eq_true, if_false, BitVec.getLsbD_and, BitVec.getLsbD_not, keyMask_getLsbD, hj]
    by_cases h : j = k <;> simp [h]

theorem step_keyWrite {s : State} {k : Nibble} {down : Bool} (h : nextEvent s = .keyWrite k down) :
    step s = .next (keyWrite k down (takeEvent s)) := by
  rw [step, h, perform]

/-- Settles O18: the step is `keyWrite` of the state with its event taken, and that writes one slot. -/
theorem latchWriteSetsOneKey : Obligations.LatchWriteSetsOneKey := by
  intro s k down h
  exact ⟨_, step_keyWrite h, rfl, fun j => keyWrite_getLsbD (takeEvent s) k j down⟩

/-! ### The elements each instruction writes (R31 to R45, R70) -/

/-- The elements of the state that an instruction may have changed, as the rules of 10_state.md list them: `t` is `s` but
for those, and for `PC`, the engine with `FR` in a fault, and the model's count of draws. -/
inductive WritesListed (s : State) : Instr → State → Prop
  | fault (i c a) : WritesListed s i (raise s c (encode i) a)
  | pcOnly (i pc) : WritesListed s i { s with pc := pc }
  | regs (i v pc draws) (hi : writesReg i = true) :
      WritesListed s i { s with v := v, pc := pc, host := { s.host with draws := draws } }
  | sprite (x y n v fb pc) : WritesListed s (.drw x y n) { s with v := v, fb := fb, pc := pc }
  | clear (fb pc) : WritesListed s .cls { s with fb := fb, pc := pc }
  | index (i a pc) (hi : (∃ n, i = .ldI n) ∨ (∃ x, i = .addIVx x) ∨ ∃ x, i = .ldFVx x) :
      WritesListed s i { s with i := a, pc := pc }
  | delayTimer (x b pc) : WritesListed s (.ldDtVx x) { s with dt := b, pc := pc }
  | soundTimer (x b pc) : WritesListed s (.ldStVx x) { s with st := b, pc := pc }
  | store (i m pc) (hi : (∃ x, i = .ldBVx x) ∨ ∃ x, i = .storeRegs x) : WritesListed s i { s with mem := m, pc := pc }
  | push (nnn sp stack pc) : WritesListed s (.call nnn) { s with sp := sp, stack := stack, pc := pc }
  | pop (sp pc) : WritesListed s .ret { s with sp := sp, pc := pc }
  | keyWait (x) : WritesListed s (.ldVxK x) { s with w := x, engine := .waitingForKey }

/-- A store that leaves `I` as it was writes memory only, or faults. -/
theorem storeAtI_writesListed (i : Instr) (bs : List Byte) (s : State)
    (hi : (∃ x, i = .ldBVx x) ∨ ∃ x, i = .storeRegs x) : WritesListed s i (storeAtI i bs s.i s) := by
  rcases storeAtI_cases i bs s.i s with ⟨c, a, -, h⟩ | ⟨-, h⟩
  · rw [h]; exact .fault ..
  · rw [h]; exact .store _ _ _ hi

/-- Every instruction writes only the elements listed for it. -/
theorem exec_writesListed {i : Instr} {s t : State} (h : exec i s = .next t) : WritesListed s i t := by
  cases i with
  | cls => cases h; exact .clear ..
  | ret =>
    simp only [exec, execRet, State.pop] at h
    by_cases hp : 0 < s.sp.val
    · rw [dif_pos hp] at h; cases h; exact .pop ..
    · rw [dif_neg hp] at h; cases h; exact .fault ..
  | call nnn =>
    simp only [exec, execCall, State.push] at h
    by_cases hp : s.sp.val < 16
    · rw [dif_pos hp] at h; cases h; exact .push ..
    · rw [dif_neg hp] at h; cases h; exact .fault ..
  | drw x y n =>
    simp only [exec, execDrw] at h
    split at h
    · cases h; exact .fault ..
    · cases h; exact .sprite ..
  | loadRegs x =>
    simp only [exec, execLoadRegs] at h
    split at h
    · cases h; exact .fault ..
    · rw [setRegs_frame] at h
      cases h; exact .regs _ _ _ _ rfl
  | ldBVx x => cases h; exact storeAtI_writesListed _ _ _ (.inl ⟨x, rfl⟩)
  | storeRegs x => cases h; exact storeAtI_writesListed _ _ _ (.inr ⟨x, rfl⟩)
  | ldI nnn => cases h; exact .index _ _ _ (.inl ⟨nnn, rfl⟩)
  | addIVx x => cases h; exact .index _ _ _ (.inr (.inl ⟨x, rfl⟩))
  | ldFVx x => cases h; exact .index _ _ _ (.inr (.inr ⟨x, rfl⟩))
  | ldDtVx x => cases h; exact .delayTimer ..
  | ldStVx x => cases h; exact .soundTimer ..
  | ldVxK x => cases h; exact .keyWait ..
  | jp | seImm | sneImm | seReg | sneReg | jpV0 | skp | sknp => cases h; exact .pcOnly ..
  | _ => cases h; exact .regs _ _ _ _ rfl

/-- Settles O22, by the kinds of write an instruction can make. -/
theorem onlyTheListedInstructionsWriteEachElement : Obligations.OnlyTheListedInstructionsWriteEachElement := by
  intro i s t h
  cases exec_writesListed h with
  | regs _ _ _ _ hi => simp [hi]
  | index _ _ _ hi => simp [hi]
  | store _ _ _ hi => simp [hi]
  | sprite => simp [writesReg]
  | _ => simp

/-! ### The Input Latch is read by the key tests alone (R45) -/

/-- The state with another Input Latch. -/
def withKeys (k : Word) (s : State) : State := { s with keys := k }

@[simp] theorem withKeys_pc (k : Word) (s : State) : (withKeys k s).pc = s.pc := rfl

@[simp] theorem withKeys_i (k : Word) (s : State) : (withKeys k s).i = s.i := rfl

@[simp] theorem bytesAtI_withKeys (k : Word) (n : Nat) (s : State) : bytesAtI n (withKeys k s) = bytesAtI n s := rfl

@[simp] theorem push_withKeys (k v : Word) (s : State) : (withKeys k s).push v = (s.push v).map (withKeys k) := by
  by_cases h : s.sp.val < 16 <;> simp [State.push, withKeys, h]

@[simp] theorem pop_withKeys (k : Word) (s : State) :
    (withKeys k s).pop = s.pop.map fun p => (withKeys k p.1, p.2) := by
  by_cases h : 0 < s.sp.val <;> simp [State.pop, withKeys, h]

@[simp] theorem storeAtI_withKeys (k : Word) (i : Instr) (bs : List Byte) (newI : Word) (s : State) :
    storeAtI i bs newI (withKeys k s) = withKeys k (storeAtI i bs newI s) := by
  simp only [storeAtI, withKeys]
  split <;> rfl

@[simp] theorem setRegs_withKeys (k : Word) (bs : List Byte) : ∀ (s : State) (n : Nat),
    (withKeys k s).setRegs n bs = withKeys k (s.setRegs n bs) := by
  induction bs with
  | nil => intro s n; rfl
  | cons b bs ih => intro s n; exact ih (s.setReg (BitVec.ofNat 4 n) b) (n + 1)

/-- An instruction that reads no key does the same with another latch, and leaves that latch. -/
theorem exec_withKeys {i : Instr} {s t : State} (k : Word) (hi : readsKeys i = false) (h : exec i s = .next t) :
    exec i (withKeys k s) = .next (withKeys k t) := by
  cases i with
  | skp x => cases hi
  | sknp x => cases hi
  | call nnn =>
    simp only [exec, execCall, withKeys_pc, push_withKeys] at h ⊢
    cases hs : s.push (s.pc + 2) with
    | some u => rw [hs] at h; cases h; rfl
    | none => rw [hs] at h; cases h; rfl
  | ret =>
    simp only [exec, execRet, pop_withKeys] at h ⊢
    cases hs : s.pop with
    | some p => rw [hs] at h; cases h; rfl
    | none => rw [hs] at h; cases h; rfl
  | drw x y n =>
    simp only [exec, execDrw, withKeys_i] at h ⊢
    cases hs : loadFault s.i.toNat n.toNat with
    | some f => rw [hs] at h; cases h; rfl
    | none => rw [hs] at h; cases h; rfl
  | loadRegs x =>
    simp only [exec, execLoadRegs, withKeys_i, bytesAtI_withKeys, setRegs_withKeys] at h ⊢
    cases hs : loadFault s.i.toNat (x.toNat + 1) with
    | some f => rw [hs] at h; cases h; rfl
    | none => rw [hs] at h; cases h; rfl
  | ldBVx x => cases h; exact congrArg Host.Outcome.next (storeAtI_withKeys ..)
  | storeRegs x => cases h; exact congrArg Host.Outcome.next (storeAtI_withKeys ..)
  | _ => cases h; rfl

/-- Settles O23, by the instructions other than the two key tests. -/
theorem onlyKeyTestsReadTheLatch : Obligations.OnlyKeyTestsReadTheLatch :=
  fun _ _ _ k hi h => exec_withKeys k hi h

end Sys2Proof.Proofs.StateElements
end

section
/-! PROOFS. The statements of spec/20_memory.md: the faults of a fetch, by range and then by alignment (R77). -/

namespace Sys2Proof.Proofs.FetchFaults

open Sys2Proof.Machine Sys2Proof.Claims

/-! ### The next step of a running cycle (40_execution_cycle.md R140, R142) -/

theorem step_runningCycle {s : State} (h : RunningCycle s) : step s = runInstruction (atCycle s) := by
  obtain ⟨hevent, hrunning⟩ := h
  have hengine : (closeLoad (takeEvent s)).engine = .running := hrunning
  rw [step, hevent, perform, cycle, hengine, atCycle]

theorem runInstruction_fetchFault {s : State} {c : FaultCode} {a : Nat} (h : fetchFault s.pc = some (c, a)) :
    runInstruction s = .next (raise s c 0 a) := by
  rw [runInstruction, h]

/-- A fetch fault of a running cycle, in the words of the statements: the offending address is the word `a`. -/
theorem step_fetchFault {s : State} {c : FaultCode} {a : Word} (h : RunningCycle s)
    (hf : fetchFault s.pc = some (c, a.toNat)) : step s = .next (faulted (atCycle s) c 0 a) := by
  have hpc : fetchFault (atCycle s).pc = some (c, a.toNat) := hf
  rw [step_runningCycle h, runInstruction_fetchFault hpc, raise, faulted, BitVec.ofNat_toNat, BitVec.setWidth_eq]

/-! ### The two faults of a fetch (20_memory.md R77) -/

/-- The least failing address: `a` where it is outside itself, else 0x1000, which is the second byte's address. -/
theorem fetchFault_outside {a : Word} (h : 0xFFF < a.toNat + 1) :
    fetchFault a = some (.memOutOfRange, (leastOutside a).toNat) := by
  rw [fetchFault, if_pos h, leastOutside]
  by_cases ha : 0xFFF < a.toNat
  · rw [if_pos ha, if_pos ha]
  · have hlast : a.toNat + 1 = 0x1000 := by omega
    rw [if_neg ha, if_neg ha, hlast]
    rfl

theorem fetchFault_odd {a : Word} (hin : a.toNat + 1 ≤ 0xFFF) (hodd : a.toNat % 2 = 1) :
    fetchFault a = some (.pcMisaligned, a.toNat) := by
  have hbit : a.getLsbD 0 = true := by simp [BitVec.getLsbD, Nat.testBit_zero, hodd]
  rw [fetchFault, if_neg (by omega), if_pos hbit]

/-- Settles O7, by the two faults of a fetch; inside memory the range check passes, so alignment decides. -/
theorem fetchFaultsByRangeThenAlignment : Obligations.FetchFaultsByRangeThenAlignment := by
  intro s h
  exact ⟨fun hout => step_fetchFault h (fetchFault_outside hout),
    fun hin hodd => step_fetchFault h (fetchFault_odd hin hodd)⟩

end Sys2Proof.Proofs.FetchFaults
end

section
/-! PROOFS. The statements of spec/30_encoding.md: a word decodes to the one row of the opcode map that matches it (R104,
R105), and the illegal words, family by family, are the unknown ones (R106). -/

namespace Sys2Proof.Proofs.Encoding

open Sys2Proof.Machine Sys2Proof.Claims Sys2Proof.Proofs.FetchFaults

/-! ### A decoded word is the encoding of its instruction (R102) -/

theorem word_of_nnn {w : Word} {o : Nibble} {a : Addr12} (ho : opField w = o) (ha : nnnField w = a) :
    (o ++ a : Word) = w :=
  ho ▸ ha ▸ word_nnn w

theorem word_of_xkk {w : Word} {o : Nibble} {k : Byte} (ho : opField w = o) (hk : kkField w = k) :
    (o ++ xField w ++ k : Word) = w :=
  ho ▸ hk ▸ word_xkk w

theorem word_of_xyn {w : Word} {o n : Nibble} (ho : opField w = o) (hn : nField w = n) :
    (o ++ xField w ++ yField w ++ n : Word) = w :=
  ho ▸ hn ▸ word_xyn w

theorem encode_of_decodeFamily0 {w : Word} {i : Instr} (ho : opField w = 0x0#4) (h : decodeFamily0 w = .known i) :
    encode i = w := by
  unfold decodeFamily0 at h
  split at h <;> cases h
  all_goals exact word_of_nnn ho ‹_›

theorem encode_of_decodeFamily8 {w : Word} {i : Instr} (ho : opField w = 0x8#4) (h : decodeFamily8 w = .known i) :
    encode i = w := by
  unfold decodeFamily8 at h
  split at h <;> cases h
  all_goals exact word_of_xyn ho ‹_›

theorem encode_of_decodeFamilyE {w : Word} {i : Instr} (ho : opField w = 0xE#4) (h : decodeFamilyE w = .known i) :
    encode i = w := by
  unfold decodeFamilyE at h
  split at h <;> cases h
  all_goals exact word_of_xkk ho ‹_›

theorem encode_of_decodeFamilyF {w : Word} {i : Instr} (ho : opField w = 0xF#4) (h : decodeFamilyF w = .known i) :
    encode i = w := by
  unfold decodeFamilyF at h
  split at h <;> cases h
  all_goals exact word_of_xkk ho ‹_›

theorem encode_of_decode {w : Word} {i : Instr} (h : decode w = .known i) : encode i = w := by
  unfold decode at h
  split at h
  next ho => exact encode_of_decodeFamily0 ho h
  next ho => cases h; exact word_of_nnn ho rfl
  next ho => cases h; exact word_of_nnn ho rfl
  next ho => cases h; exact word_of_xkk ho rfl
  next ho => cases h; exact word_of_xkk ho rfl
  next ho => split at h <;> cases h; exact word_of_xyn ho ‹_›
  next ho => cases h; exact word_of_xkk ho rfl
  next ho => cases h; exact word_of_xkk ho rfl
  next ho => exact encode_of_decodeFamily8 ho h
  next ho => split at h <;> cases h; exact word_of_xyn ho ‹_›
  next ho => cases h; exact word_of_nnn ho rfl
  next ho => cases h; exact word_of_nnn ho rfl
  next ho => cases h; exact word_of_xkk ho rfl
  next ho => cases h; exact word_of_xyn ho rfl
  next ho => exact encode_of_decodeFamilyE ho h
  next ho => exact encode_of_decodeFamilyF ho h
  next => cases h

/-! ### The row a word decodes to (R104, R105) -/

/-- The row of R104 that the decoder's answer belongs to, if it is an instruction. -/
def decodedRow : Decoded → Option Row
  | .known i => some i.row
  | .unknown _ => none

/-- A field that a mask keeps whole is the field of the masked word. -/
theorem field_of_mask {w m f : Word} {start len : Nat} (h : w &&& m = f)
    (hm : m.extractLsb' start len = BitVec.allOnes len) : w.extractLsb' start len = f.extractLsb' start len := by
  rw [← h, BitVec.extractLsb'_and, hm, BitVec.and_allOnes]

theorem opField_of_mask {w m f : Word} (h : w &&& m = f) (hm : opField m = BitVec.allOnes 4) : opField w = opField f :=
  field_of_mask h hm

theorem nField_of_mask {w m f : Word} (h : w &&& m = f) (hm : nField m = BitVec.allOnes 4) : nField w = nField f :=
  field_of_mask h hm

theorem kkField_of_mask {w m f : Word} (h : w &&& m = f) (hm : kkField m = BitVec.allOnes 8) : kkField w = kkField f :=
  field_of_mask h hm

theorem word_of_mask {w m f : Word} (h : w &&& m = f) (hm : m = BitVec.allOnes 16) : w = f := by
  rw [← h, hm, BitVec.and_allOnes]

theorem encode_rowMatch (i : Instr) : Laws.RowMatch.Statement i := by
  cases i with
  | cls => exact Laws.RowMatch.cls
  | ret => exact Laws.RowMatch.ret
  | jp nnn => exact Laws.RowMatch.jp nnn
  | call nnn => exact Laws.RowMatch.call nnn
  | seImm x kk => exact Laws.RowMatch.seImm x kk
  | sneImm x kk => exact Laws.RowMatch.sneImm x kk
  | seReg x y => exact Laws.RowMatch.seReg x y
  | ldImm x kk => exact Laws.RowMatch.ldImm x kk
  | addImm x kk => exact Laws.RowMatch.addImm x kk
  | ldReg x y => exact Laws.RowMatch.ldReg x y
  | orReg x y => exact Laws.RowMatch.orReg x y
  | andReg x y => exact Laws.RowMatch.andReg x y
  | xorReg x y => exact Laws.RowMatch.xorReg x y
  | addReg x y => exact Laws.RowMatch.addReg x y
  | subReg x y => exact Laws.RowMatch.subReg x y
  | shr x y => exact Laws.RowMatch.shr x y
  | subnReg x y => exact Laws.RowMatch.subnReg x y
  | shl x y => exact Laws.RowMatch.shl x y
  | sneReg x y => exact Laws.RowMatch.sneReg x y
  | ldI nnn => exact Laws.RowMatch.ldI nnn
  | jpV0 nnn => exact Laws.RowMatch.jpV0 nnn
  | rnd x kk => exact Laws.RowMatch.rnd x kk
  | drw x y n => exact Laws.RowMatch.drw x y n
  | skp x => exact Laws.RowMatch.skp x
  | sknp x => exact Laws.RowMatch.sknp x
  | ldVxDt x => exact Laws.RowMatch.ldVxDt x
  | ldVxK x => exact Laws.RowMatch.ldVxK x
  | ldDtVx x => exact Laws.RowMatch.ldDtVx x
  | ldStVx x => exact Laws.RowMatch.ldStVx x
  | addIVx x => exact Laws.RowMatch.addIVx x
  | ldFVx x => exact Laws.RowMatch.ldFVx x
  | ldBVx x => exact Laws.RowMatch.ldBVx x
  | storeRegs x => exact Laws.RowMatch.storeRegs x
  | loadRegs x => exact Laws.RowMatch.loadRegs x

/-- A word that an instruction's row matches decodes to an instruction of that row: by the word where the whole word is
fixed, else by the family and the low nibble or low byte that the row fixes too. -/
theorem decodedRow_of_holds {i : Instr} {w : Word} (h : i.row.holds w = true) : decodedRow (decode w) = some i.row := by
  cases i <;> simp only [Instr.row, Row.holds, beq_iff_eq] at h
  case cls | ret => rw [word_of_mask h rfl]; rfl
  case seReg | sneReg => rw [decode, opField_of_mask h rfl, nField_of_mask h rfl]; rfl
  case ldReg | orReg | andReg | xorReg | addReg | subReg | shr | subnReg | shl =>
    have hfamily : decode w = decodeFamily8 w := by rw [decode, opField_of_mask h rfl]; rfl
    rw [hfamily, decodeFamily8, nField_of_mask h rfl]; rfl
  case skp | sknp =>
    have hfamily : decode w = decodeFamilyE w := by rw [decode, opField_of_mask h rfl]; rfl
    rw [hfamily, decodeFamilyE, kkField_of_mask h rfl]; rfl
  case ldVxDt | ldVxK | ldDtVx | ldStVx | addIVx | ldFVx | ldBVx | storeRegs | loadRegs =>
    have hfamily : decode w = decodeFamilyF w := by rw [decode, opField_of_mask h rfl]; rfl
    rw [hfamily, decodeFamilyF, kkField_of_mask h rfl]; rfl
  all_goals rw [decode, opField_of_mask h rfl]; rfl

theorem decodedRow_of_mem {r : Row} {w : Word} (hr : r ∈ opcodeTable) (h : r.holds w = true) :
    decodedRow (decode w) = some r := by
  obtain ⟨i, -, rfl⟩ := List.mem_map.1 hr
  exact decodedRow_of_holds h

theorem row_holds_of_decode {w : Word} {i : Instr} (h : decode w = .known i) : i.row.holds w = true :=
  encode_of_decode h ▸ (encode_rowMatch i).1

theorem decode_unknown_self {w u : Word} (h : decode w = .unknown u) : u = w := by
  unfold decode decodeFamily0 decodeFamily8 decodeFamilyE decodeFamilyF at h
  repeat' split at h
  all_goals cases h
  all_goals rfl

/-- Settles O3: a row of the table that matches a word is the row of the decoder's answer, so there is at most one, and
none where the answer is unknown. -/
theorem wordDecodesToItsOneMatchingRow : Obligations.WordDecodesToItsOneMatchingRow := by
  refine fun w => ⟨fun i hi => ⟨row_holds_of_decode hi, fun r hr h => ?_⟩,
    fun u hu => ⟨decode_unknown_self hu, fun r hr => Bool.eq_false_iff.2 fun h => ?_⟩⟩
  · have hrow : decodedRow (.known i) = some r := hi ▸ decodedRow_of_mem hr h
    exact (Option.some.inj hrow).symm
  · have hrow : decodedRow (.unknown u) = some r := hu ▸ decodedRow_of_mem hr h
    cases hrow

/-! ### The illegal words (R106) -/

theorem toNat_opField (w : Word) : (opField w).toNat = w.toNat / 0x1000 := by
  rw [opField, BitVec.extractLsb'_toNat, Nat.shiftRight_eq_div_pow]
  omega

theorem toNat_nField (w : Word) : (nField w).toNat = w.toNat % 0x10 := by
  simp [nField, BitVec.extractLsb'_toNat]

theorem toNat_kkField (w : Word) : (kkField w).toNat = w.toNat % 0x100 := by
  simp [kkField, BitVec.extractLsb'_toNat]

theorem decodeFamily0_unknown_iff {w : Word} (ho : opField w = 0x0#4) :
    decodeFamily0 w = .unknown w ↔ w ≠ 0x00E0 ∧ w ≠ 0x00EE := by
  unfold decodeFamily0
  split
  next hn => simp [← show 0x00E0#16 = w from word_of_nnn ho hn]
  next hn => simp [← show 0x00EE#16 = w from word_of_nnn ho hn]
  next hcls hret => exact iff_of_true rfl ⟨fun h => hcls (h ▸ rfl), fun h => hret (h ▸ rfl)⟩

theorem decodeFamily8_unknown_iff (w : Word) :
    decodeFamily8 w = .unknown w ↔ w.toNat % 0x10 ∈ [0x8, 0x9, 0xA, 0xB, 0xC, 0xD, 0xF] := by
  rw [← toNat_nField, decodeFamily8]
  generalize nField w = n
  split
  case h_10 =>
    have hlt := n.isLt
    simp_all [← BitVec.toNat_inj]
    omega
  all_goals simp

theorem decodeFamilyE_unknown_iff (w : Word) :
    decodeFamilyE w = .unknown w ↔ w.toNat % 0x100 ∉ [0x9E, 0xA1] := by
  rw [← toNat_kkField, decodeFamilyE]
  generalize kkField w = k
  split
  case h_3 => simp_all [← BitVec.toNat_inj]
  all_goals simp

theorem decodeFamilyF_unknown_iff (w : Word) :
    decodeFamilyF w = .unknown w ↔ w.toNat % 0x100 ∉ [0x07, 0x0A, 0x15, 0x18, 0x1E, 0x29, 0x33, 0x55, 0x65] := by
  rw [← toNat_kkField, decodeFamilyF]
  generalize kkField w = k
  split
  case h_10 => simp_all [← BitVec.toNat_inj]
  all_goals simp

/-- R106's family list is where the decoder answers unknown: in families 0, 8, E and F by that family's table, in 5 and 9
by the low nibble, and in no other. The default row of `decode` is never taken, since the sixteen families are all there
are. -/
theorem decode_unknown_iff (w : Word) : decode w = .unknown w ↔
      (w.toNat / 0x1000 = 0x0 ∧ w ≠ 0x00E0 ∧ w ≠ 0x00EE) ∨ (w.toNat / 0x1000 = 0x5 ∧ w.toNat % 0x10 ≠ 0) ∨
      (w.toNat / 0x1000 = 0x8 ∧ w.toNat % 0x10 ∈ [0x8, 0x9, 0xA, 0xB, 0xC, 0xD, 0xF]) ∨
      (w.toNat / 0x1000 = 0x9 ∧ w.toNat % 0x10 ≠ 0) ∨
      (w.toNat / 0x1000 = 0xE ∧ w.toNat % 0x100 ∉ [0x9E, 0xA1]) ∨
      (w.toNat / 0x1000 = 0xF ∧ w.toNat % 0x100 ∉ [0x07, 0x0A, 0x15, 0x18, 0x1E, 0x29, 0x33, 0x55, 0x65]) := by
  rw [← decodeFamily8_unknown_iff, ← decodeFamilyE_unknown_iff, ← decodeFamilyF_unknown_iff, ← toNat_opField,
    ← toNat_nField]
  unfold decode
  split
  next ho => simp [ho, decodeFamily0_unknown_iff ho]
  case h_17 =>
    exfalso
    have hlt := (opField w).isLt
    simp only [← BitVec.toNat_inj, BitVec.toNat_ofNat, imp_false] at *
    omega
  all_goals simp [*, ← BitVec.toNat_inj]

/-! ### An illegal word halts a running cycle (R310, R311, R315) -/

theorem step_unknownWord {s : State} {w : Word} (hrun : RunningCycle s) (hfetch : fetchFault s.pc = none)
    (hdecode : decode (fetchWord s) = .unknown w) :
    step s = .next (faulted (atCycle s) .unknownInstruction w 0) := by
  have hf : fetchFault (atCycle s).pc = none := hfetch
  have hd : decode (fetchWord (atCycle s)) = .unknown w := hdecode
  rw [step_runningCycle hrun, runInstruction, hf]
  simp only [hd]
  rfl

/-- Settles O4: the family list is where the decoder answers unknown, and a cycle that fetches such a word faults. -/
theorem illegalWordsAreUnknownAndFault : Obligations.IllegalWordsAreUnknownAndFault := by
  intro w op n kk illegal
  have hunknown : illegal ↔ decode w = .unknown w := (decode_unknown_iff w).symm
  refine ⟨hunknown, fun hillegal s hrun heven hin hbytes => ?_⟩
  have hword : fetchWord s = w := hbytes
  exact step_unknownWord hrun ((fetchFault_none s.pc).2 ⟨heven, hin⟩) (hword ▸ hunknown.1 hillegal)

/-! ### Words written out (R101, R104) -/

/-- Settles O5, by running the decoder on each word. -/
theorem wordsWrittenOutDecode : Obligations.WordsWrittenOutDecode := by
  unfold Obligations.WordsWrittenOutDecode
  decide

end Sys2Proof.Proofs.Encoding
end

section
/-! PROOFS. The statements of spec/40_execution_cycle.md: what a cycle does by the engine state (R140 to R143), the
transitions of the engine state (R148), and the timer tick (R155, R156). -/

namespace Sys2Proof.Proofs.ExecutionCycle

open Sys2Proof.Machine Sys2Proof.Claims Sys2Proof.Proofs.FetchFaults Sys2Proof.Proofs.Encoding

/-! ### A running cycle executes the instruction at `PC` (R142) -/

theorem runInstruction_known {s : State} {i : Instr} (hfetch : fetchFault s.pc = none)
    (hdecode : decode (fetchWord s) = .known i) : runInstruction s = exec i s := by
  rw [runInstruction, hfetch]
  simp only [hdecode]

/-- Settles O6: the fetch passes its checks, so the decoder's answer decides. -/
theorem stepRunsTheDecodedInstruction : Obligations.StepRunsTheDecodedInstruction := by
  intro s hrun heven hin
  have hfetch : fetchFault s.pc = none := (fetchFault_none s.pc).2 ⟨heven, hin⟩
  refine ⟨fun i hknown => ?_, fun w hunknown => step_unknownWord hrun hfetch hunknown⟩
  rw [step_runningCycle hrun]
  exact runInstruction_known (s := atCycle s) hfetch hknown

/-! ### The timer tick (R155, R156) -/

theorem step_tick {s : State} (h : nextEvent s = .tick) : step s = .next (tick (takeEvent s)) := by
  rw [step, h, perform]

theorem tick_halted {s : State} (h : s.engine = .haltedOnFault) : tick s = s := by
  rw [tick, h]

theorem tick_notHalted {s : State} (h : s.engine ≠ .haltedOnFault) :
    tick s = { s with dt := countDown s.dt, st := countDown s.st } := by
  cases hE : s.engine with
  | running => rw [tick, hE]
  | waitingForKey => rw [tick, hE]
  | haltedOnFault => exact absurd hE h

/-- Counting down stops at 0, as subtraction of naturals does. -/
theorem countDown_toNat (b : Byte) : (countDown b).toNat = b.toNat - 1 := by
  unfold countDown
  split
  case isTrue h => rw [h]; rfl
  case isFalse h => bv_omega

theorem step_tick_halted {s : State} (h : nextEvent s = .tick) (hE : s.engine = .haltedOnFault) :
    step s = .next (takeEvent s) := by
  rw [step_tick h, tick_halted (s := takeEvent s) hE]

theorem step_tick_notHalted {s : State} (h : nextEvent s = .tick) (hE : s.engine ≠ .haltedOnFault) :
    step s = .next { takeEvent s with dt := countDown s.dt, st := countDown s.st } := by
  rw [step_tick h, tick_notHalted (s := takeEvent s) hE]
  rfl

/-- Settles O13, by the two equations of a tick step. -/
theorem tickCountsBothTimersDown : Obligations.TickCountsBothTimersDown :=
  fun s h => ⟨fun hE => ⟨_, step_tick_notHalted h hE, rfl, countDown_toNat s.dt, countDown_toNat s.st⟩,
    step_tick_halted h⟩

/-- Settles O14, by induction on the number of ticks: the first one counts down, the rest runs from the state after it. -/
theorem ticksBringTheTimersToZero : Obligations.TicksBringTheTimersToZero := by
  intro n
  induction n with
  | zero =>
    intro s rest _ hscript
    have hrest : s.host.script = rest := hscript
    subst hrest
    exact ⟨s, rfl, rfl, rfl, rfl⟩
  | succ n ih =>
    intro s rest hE hscript
    rw [List.replicate_succ, List.cons_append] at hscript
    have hevent : nextEvent s = .tick := by rw [nextEvent, hscript]; rfl
    have htail : s.host.script.tail = List.replicate n .tick ++ rest := by rw [hscript]; rfl
    obtain ⟨t, hrun, hframe, hdt, hst⟩ :=
      ih { takeEvent s with dt := countDown s.dt, st := countDown s.st } rest hE htail
    rw [countDown_toNat] at hdt hst
    exact ⟨t, (core_run_succ n s _ (step_tick_notHalted hevent hE)).trans hrun, hframe, by omega, by omega⟩

/-! ### The engine state (R141, R143, R148) -/

theorem step_cycle {s : State} (h : nextEvent s = .cycle) : step s = cycle (atCycle s) := by
  rw [step, h, perform, atCycle]

theorem cycle_halted {s : State} (h : s.engine = .haltedOnFault) : cycle s = .next s := by
  rw [cycle, h]

theorem cycle_waiting {s : State} (h : s.engine = .waitingForKey) : cycle s = .next (poll s) := by
  rw [cycle, h]

theorem step_cycle_halted {s : State} (h : nextEvent s = .cycle) (hE : s.engine = .haltedOnFault) :
    step s = .next (atCycle s) := by
  rw [step_cycle h, cycle_halted (s := atCycle s) hE]

theorem step_cycle_waiting {s : State} (h : nextEvent s = .cycle) (hE : s.engine = .waitingForKey) :
    step s = .next (poll (atCycle s)) := by
  rw [step_cycle h, cycle_waiting (s := atCycle s) hE]

theorem step_reset {s : State} (h : nextEvent s = .reset) : step s = .next (resetCall (takeEvent s)) := by
  rw [step, h, perform]

theorem loadCall_keeps_engine {bytes : List Byte} {s t : State} (h : loadCall bytes s = .next t) :
    t.engine = s.engine ∧ t.fr = s.fr := by
  unfold loadCall at h
  split at h
  · split at h
    · cases h; exact ⟨rfl, rfl⟩
    · cases h; exact ⟨rfl, rfl⟩
  · cases h

theorem tick_keeps_engine (s : State) : (tick s).engine = s.engine ∧ (tick s).fr = s.fr := by
  by_cases hE : s.engine = .haltedOnFault
  · rw [tick_halted hE]; exact ⟨rfl, rfl⟩
  · rw [tick_notHalted hE]; exact ⟨rfl, rfl⟩

/-- Of the events from outside, only `reset()` and `cycle()` can change the engine state or the fault record. -/
theorem perform_keeps_engine {e : HostEvent} {s t : State} (hreset : e ≠ .reset) (hcycle : e ≠ .cycle)
    (h : perform e s = .next t) : t.engine = s.engine ∧ t.fr = s.fr := by
  cases e with
  | reset => exact absurd rfl hreset
  | cycle => exact absurd rfl hcycle
  | load bytes => exact loadCall_keeps_engine h
  | tick => cases h; exact tick_keeps_engine s
  | keyWrite k down => cases h; exact ⟨rfl, rfl⟩

theorem step_keeps_engine {s t : State} (hreset : nextEvent s ≠ .reset) (hcycle : nextEvent s ≠ .cycle)
    (h : step s = .next t) : t.engine = s.engine ∧ t.fr = s.fr :=
  perform_keeps_engine (s := takeEvent s) hreset hcycle h

/-- Settles O9: a halted cycle and tick are the identity on the block, and the other events but reset keep the engine. -/
theorem haltedEngineIsFrozenUntilReset : Obligations.HaltedEngineIsFrozenUntilReset := by
  intro s hE
  refine ⟨fun h => step_cycle_halted h hE, fun h => step_tick_halted h hE, fun t hreset h => ?_⟩
  by_cases hcycle : nextEvent s = .cycle
  · have ht : Host.Outcome.next (atCycle s) = .next t := (step_cycle_halted hcycle hE).symm.trans h
    cases ht
    exact ⟨hE, rfl⟩
  · obtain ⟨hengine, hfr⟩ := step_keeps_engine hreset hcycle h
    exact ⟨hengine.trans hE, hfr⟩

/-! ### The poll of a key wait (R143) -/

theorem leastKey_eq_none_iff (keys : Word) : leastKey keys = none ↔ keys = 0 := by
  rw [leastKey, Option.map_eq_none_iff, List.find?_eq_none]
  constructor
  · intro h
    refine BitVec.eq_of_getLsbD_eq fun k hk => ?_
    have hk : keys.getLsbD k = false := by simpa using h k (List.mem_range.2 hk)
    rw [hk, BitVec.ofNat_eq_ofNat, BitVec.getLsbD_zero]
  · rintro rfl k -
    simp

/-- The row of R148 for a poll: the wait goes on exactly while no key is down. -/
theorem poll_waiting_engine {s : State} (hE : s.engine = .waitingForKey) :
    (poll s).engine = if s.keys = 0 then .waitingForKey else .running := by
  rcases poll_cases s with ⟨hnone, hpoll⟩ | ⟨k, hsome, hpoll⟩
  · rw [hpoll, if_pos ((leastKey_eq_none_iff s.keys).1 hnone), hE]
  · have hkeys : s.keys ≠ 0 := fun h => by
      rw [(leastKey_eq_none_iff s.keys).2 h] at hsome
      cases hsome
    rw [hpoll, if_neg hkeys]

/-! ### The transitions of a running cycle (R148) -/

/-- What an instruction does to the engine state and `FR`: neither changes, or it faults, or it is FX0A and waits. -/
theorem exec_engine_cases {i : Instr} {s t : State} (h : exec i s = .next t) :
    (t.engine = s.engine ∧ t.fr = s.fr ∧ ∀ x, i ≠ .ldVxK x) ∨
    (∃ c a, t = raise s c (encode i) a ∧ ∀ x, i ≠ .ldVxK x) ∨
    (∃ x, i = .ldVxK x ∧ t = { s with w := x, engine := .waitingForKey }) := by
  obtain ⟨u, hu, hcases⟩ := exec_cases i s
  obtain rfl : u = t := Host.Outcome.next.inj (hu.symm.trans h)
  rcases hcases with ⟨⟨_, _, _, _, _, _, _, rfl⟩, hi⟩ | hraise | hwait | ⟨⟨_, _, -, rfl⟩, hi⟩ | ⟨⟨_, _, rfl⟩, _, rfl⟩ |
    ⟨⟨_, rfl⟩, rfl⟩
  · exact .inl ⟨rfl, rfl, hi⟩
  · exact .inr (.inl hraise)
  · exact .inr (.inr hwait)
  · refine .inl ⟨rfl, rfl, ?_⟩
    rcases hi with ⟨_, rfl⟩ | ⟨_, rfl⟩
    · nofun
    · nofun
  · exact .inl ⟨rfl, rfl, nofun⟩
  · exact .inl ⟨rfl, rfl, nofun⟩

/-- The word at `PC` can be fetched and is FX0A with the register `x`. -/
def FetchesKeyWait (s : State) (x : Nibble) : Prop :=
  fetchFault s.pc = none ∧ decode (fetchWord s) = .known (.ldVxK x)

/-- What a running cycle does to the engine state and `FR`: neither changes, or it halts on a fault, or it has fetched
FX0A and waits. -/
theorem runInstruction_engine_cases {s t : State} (h : runInstruction s = .next t) :
    (t.engine = s.engine ∧ t.fr = s.fr ∧ ∀ x, ¬ FetchesKeyWait s x) ∨
    (∃ c w a, t = raise s c w a ∧ ∀ x, ¬ FetchesKeyWait s x) ∨
    (∃ x, FetchesKeyWait s x ∧ t = { s with w := x, engine := .waitingForKey }) := by
  rcases runInstruction_cases s with ⟨c, a, hfetch, hr⟩ | ⟨-, w, hdecode, hr⟩ | ⟨hfetch, i, hdecode, hr⟩
  · refine .inr (.inl ⟨c, 0, a, Host.Outcome.next.inj (h.symm.trans hr), ?_⟩)
    rintro x ⟨hnone, -⟩
    cases hfetch.symm.trans hnone
  · refine .inr (.inl ⟨_, w, 0, Host.Outcome.next.inj (h.symm.trans hr), ?_⟩)
    rintro x ⟨-, hwait⟩
    cases hdecode.symm.trans hwait
  · have hfetches : ∀ x, FetchesKeyWait s x → i = .ldVxK x := fun x ⟨_, hwait⟩ =>
      Decoded.known.inj (hdecode.symm.trans hwait)
    rcases exec_engine_cases (hr.symm.trans h) with ⟨hengine, hfr, hi⟩ | ⟨c, a, ht, hi⟩ | ⟨x, rfl, ht⟩
    · exact .inl ⟨hengine, hfr, fun x hx => hi x (hfetches x hx)⟩
    · exact .inr (.inl ⟨c, _, a, ht, fun x hx => hi x (hfetches x hx)⟩)
    · exact .inr (.inr ⟨x, ⟨hfetch, hdecode⟩, ht⟩)

/-- The row of R148 for a cycle in Running, with what it does to `FR`. -/
theorem runInstruction_transition {s t : State} (hE : s.engine = .running) (h : runInstruction s = .next t) :
    (t.engine = .waitingForKey ↔ ∃ x, FetchesKeyWait s x ∧ t.w = x) ∧
    (t.engine = .haltedOnFault → t.fr.code ≠ none ∧ t.fr.pc = s.pc) ∧
    (t.engine ≠ .haltedOnFault → t.fr = s.fr) := by
  rcases runInstruction_engine_cases h with ⟨hengine, hfr, hwait⟩ | ⟨c, w, a, rfl, hwait⟩ | ⟨x, hx, rfl⟩
  · rw [hengine, hE]
    exact ⟨⟨nofun, fun ⟨x, hx, _⟩ => absurd hx (hwait x)⟩, nofun, fun _ => hfr⟩
  · exact ⟨⟨nofun, fun ⟨x, hx, _⟩ => absurd hx (hwait x)⟩, fun _ => ⟨nofun, rfl⟩, fun hne => absurd rfl hne⟩
  · exact ⟨⟨fun _ => ⟨x, hx, rfl⟩, fun _ => rfl⟩, nofun, fun _ => rfl⟩

theorem fetchesKeyWait_iff (s : State) (x : Nibble) : FetchesKeyWait s x ↔
    s.pc.toNat % 2 = 0 ∧ s.pc.toNat ≤ 0xFFE ∧
      decode (s.byteAt s.pc.toNat ++ s.byteAt (s.pc.toNat + 1)) = .known (.ldVxK x) := by
  rw [FetchesKeyWait, fetchFault_none, and_assoc, fetchWord, wordOfBytes]

/-- Settles O10, by the event, and for a cycle by the engine state. -/
theorem engineChangesOnlyByTheTable : Obligations.EngineChangesOnlyByTheTable := by
  intro s t h
  cases hevent : nextEvent s with
  | reset =>
    cases (step_reset hevent).symm.trans h
    rfl
  | load bytes => exact (step_keeps_engine (by simp [hevent]) (by simp [hevent]) h).1
  | tick => exact (step_keeps_engine (by simp [hevent]) (by simp [hevent]) h).1
  | keyWrite k down => exact (step_keeps_engine (by simp [hevent]) (by simp [hevent]) h).1
  | cycle =>
    cases hE : s.engine with
    | haltedOnFault =>
      cases (step_cycle_halted hevent hE).symm.trans h
      exact hE
    | waitingForKey =>
      cases (step_cycle_waiting hevent hE).symm.trans h
      exact poll_waiting_engine (s := atCycle s) hE
    | running =>
      have hrun : runInstruction (atCycle s) = .next t := (step_runningCycle ⟨hevent, hE⟩).symm.trans h
      have htransition := runInstruction_transition (s := atCycle s) hE hrun
      simp only [fetchesKeyWait_iff, and_assoc] at htransition
      exact htransition

end Sys2Proof.Proofs.ExecutionCycle
end

section
/-! PROOFS. The words as the instruction rules write them (`0x8004 | x<<8 | y<<4`, …), laid out by the formats of
spec/30_encoding.md R102, so that the decoder's field lemmas read them. -/

namespace Sys2Proof.Proofs.RuleWords

open Sys2Proof.Claims

/-- A base with the family alone makes a word of format XKK. -/
theorem wordXKK_family (o x : Nibble) (kk : Byte) : wordXKK (o ++ 0#12) x kk = o ++ x ++ kk := by
  apply BitVec.eq_of_getLsbD_eq; intro i hi
  simp only [wordXKK, bit_xkk, bit_nnn, BitVec.getLsbD_or, BitVec.getLsbD_shiftLeft, BitVec.getLsbD_setWidth,
    BitVec.getLsbD_zero]
  interval_cases i <;> simp

/-- A base with the family and the low nibble makes a word of formats XY and XYN. -/
theorem wordXY_family (o x y n : Nibble) : wordXY (o ++ 0#4 ++ 0#4 ++ n) x y = o ++ x ++ y ++ n := by
  apply BitVec.eq_of_getLsbD_eq; intro i hi
  simp only [wordXY, bit_xyn, BitVec.getLsbD_or, BitVec.getLsbD_shiftLeft, BitVec.getLsbD_setWidth,
    BitVec.getLsbD_zero]
  interval_cases i <;> simp

end Sys2Proof.Proofs.RuleWords
end

section
/-! PROOFS. The statements of spec/41_alu.md: what each arithmetic and bitwise instruction leaves in `V[x]` and in VF
(R170 to R183), and that it changes nothing else but `PC`. -/

namespace Sys2Proof.Proofs.Alu

open Sys2Proof.Machine Sys2Proof.Claims Sys2Proof.Proofs.RuleWords

/-! ### Decoding (R104 rows 8 to 18) -/

theorem decode_6xkk (x : Nibble) (kk : Byte) : decode (wordXKK 0x6000 x kk) = .known (.ldImm x kk) :=
  (congrArg decode (wordXKK_family 0x6#4 x kk)).trans (by simp [decode])

theorem decode_7xkk (x : Nibble) (kk : Byte) : decode (wordXKK 0x7000 x kk) = .known (.addImm x kk) :=
  (congrArg decode (wordXKK_family 0x7#4 x kk)).trans (by simp [decode])

/-- A word of family 8 is decoded by its low nibble, whatever the registers. -/
theorem decode_8xyn (x y n : Nibble) :
    decode (wordXY (0x8#4 ++ 0#4 ++ 0#4 ++ n) x y) = decodeFamily8 (0x8#4 ++ x ++ y ++ n) := by
  rw [wordXY_family]
  simp [decode]

theorem decode_8xy0 (x y : Nibble) : decode (wordXY 0x8000 x y) = .known (.ldReg x y) :=
  (decode_8xyn x y 0x0#4).trans (by simp [decodeFamily8])

theorem decode_8xy1 (x y : Nibble) : decode (wordXY 0x8001 x y) = .known (.orReg x y) :=
  (decode_8xyn x y 0x1#4).trans (by simp [decodeFamily8])

theorem decode_8xy2 (x y : Nibble) : decode (wordXY 0x8002 x y) = .known (.andReg x y) :=
  (decode_8xyn x y 0x2#4).trans (by simp [decodeFamily8])

theorem decode_8xy3 (x y : Nibble) : decode (wordXY 0x8003 x y) = .known (.xorReg x y) :=
  (decode_8xyn x y 0x3#4).trans (by simp [decodeFamily8])

theorem decode_8xy4 (x y : Nibble) : decode (wordXY 0x8004 x y) = .known (.addReg x y) :=
  (decode_8xyn x y 0x4#4).trans (by simp [decodeFamily8])

theorem decode_8xy5 (x y : Nibble) : decode (wordXY 0x8005 x y) = .known (.subReg x y) :=
  (decode_8xyn x y 0x5#4).trans (by simp [decodeFamily8])

theorem decode_8xy6 (x y : Nibble) : decode (wordXY 0x8006 x y) = .known (.shr x y) :=
  (decode_8xyn x y 0x6#4).trans (by simp [decodeFamily8])

theorem decode_8xy7 (x y : Nibble) : decode (wordXY 0x8007 x y) = .known (.subnReg x y) :=
  (decode_8xyn x y 0x7#4).trans (by simp [decodeFamily8])

theorem decode_8xyE (x y : Nibble) : decode (wordXY 0x800E x y) = .known (.shl x y) :=
  (decode_8xyn x y 0xE#4).trans (by simp [decodeFamily8])

/-! ### The results and the flags on naturals (R170, R171) -/

theorem addResult_toNat (p q : Byte) : (addResult p q).toNat = (p.toNat + q.toNat) % 256 := by
  rw [addResult, trunc8, BitVec.toNat_ofNat]

theorem subResult_toNat (p q : Byte) : (subResult p q).toNat = (p.toNat + 256 - q.toNat) % 256 := by
  rw [subResult, trunc8, BitVec.toNat_ofNat]

/-- Half a byte needs no narrowing. -/
theorem shrResult_toNat (p : Byte) : (shrResult p).toNat = p.toNat / 2 := by
  have hp : p.toNat < 256 := p.isLt
  rw [shrResult, trunc8, BitVec.toNat_ofNat, Nat.mod_eq_of_lt (by omega)]

theorem shlResult_toNat (p : Byte) : (shlResult p).toNat = p.toNat * 2 % 256 := by
  rw [shlResult, trunc8, BitVec.toNat_ofNat]

theorem shrFlag_eq (p : Byte) : shrFlag p = flagByte (decide (p.toNat % 2 = 1)) := by
  rw [shrFlag, BitVec.getLsbD, Nat.testBit_zero]

/-- Bit 7 is the top bit: it is set from 0x80 on. -/
theorem shlFlag_eq (p : Byte) : shlFlag p = flagByte (decide (0x80 ≤ p.toNat)) := by
  have hmsb : p.getLsbD 7 = p.msb := (BitVec.msb_eq_getLsbD_last p).symm
  rw [shlFlag, hmsb, BitVec.msb_eq_decide]

/-! ### The two kinds of write (R32) -/

/-- A register write and the advance of `PC`, for a meaning without a flag. -/
theorem setReg_writesReg (s : State) (x : Nibble) (b : Byte) : WritesReg s (s.setReg x b).advance x b :=
  ⟨rfl, fun r => setReg_reg s x r b⟩

/-- The flag is written last, so VF holds it also where `x` is F, and the result is lost there. -/
theorem setRegFlag_writesRegAndFlag {s : State} {x : Nibble} {b f : Byte} {result : Nat} {flag : Bool}
    (hb : b.toNat = result) (hf : f = flagByte flag) :
    WritesRegAndFlag s (s.setRegFlag x b f).advance x result flag := by
  refine ⟨rfl, ?_, fun hx => ?_, fun r hr hF => ?_⟩
  · simp [hf, flagByte]
  · simp [hx, hb]
  · simp [hr, hF]

/-! ### The meanings, instruction by instruction (R173 to R183) -/

/-- Settles O25: both meanings are one register write. -/
theorem loadImmediateAndMove : Obligations.LoadImmediateAndMove :=
  ⟨fun x kk s => ⟨decode_6xkk x kk, _, rfl, setReg_writesReg s x kk⟩,
    fun x y s => ⟨decode_8xy0 x y, _, rfl, setReg_writesReg s x (s.reg y)⟩⟩

/-- Settles O26: one register write of the wrapped sum, so VF is a register like the others. -/
theorem addImmediateWrapsWithoutFlag : Obligations.AddImmediateWrapsWithoutFlag := by
  intro x kk s
  obtain ⟨hframe, hreg⟩ := setReg_writesReg s x (addResult (s.reg x) kk)
  refine ⟨decode_7xkk x kk, _, rfl, hframe, ?_, fun r hr => ?_⟩
  · rw [hreg, if_pos rfl, addResult_toNat]
  · rw [hreg, if_neg hr]

/-- Settles O27: at this hardware's QUIRK_LOGIC_VF (D5) nothing follows the register write of the result. -/
theorem logicOperationsKeepVF : Obligations.LogicOperationsKeepVF := by
  intro x y s
  exact ⟨⟨decode_8xy1 x y, _, rfl, setReg_writesReg s x (s.reg x ||| s.reg y)⟩,
    ⟨decode_8xy2 x y, _, rfl, setReg_writesReg s x (s.reg x &&& s.reg y)⟩,
    ⟨decode_8xy3 x y, _, rfl, setReg_writesReg s x (s.reg x ^^^ s.reg y)⟩⟩

/-- Settles O28: the wrapped sum, then the carry. -/
theorem addSetsCarry : Obligations.AddSetsCarry :=
  fun x y s => ⟨decode_8xy4 x y, _, rfl, setRegFlag_writesRegAndFlag (addResult_toNat (s.reg x) (s.reg y)) rfl⟩

/-- Settles O29: the wrapped difference, then the no-borrow; 8XY7 is 8XY5 with its operands exchanged. -/
theorem subtractSetsNoBorrow : Obligations.SubtractSetsNoBorrow := by
  intro x y s
  exact ⟨⟨decode_8xy5 x y, _, rfl, setRegFlag_writesRegAndFlag (subResult_toNat (s.reg x) (s.reg y)) rfl⟩,
    ⟨decode_8xy7 x y, _, rfl, setRegFlag_writesRegAndFlag (subResult_toNat (s.reg y) (s.reg x)) rfl⟩⟩

/-- Settles O30: at this hardware's QUIRK_SHIFT_SRC (D2) the value shifted is `V[x]`; the result, then the bit shifted
out. -/
theorem shiftsSetTheBitShiftedOut : Obligations.ShiftsSetTheBitShiftedOut := by
  intro x y s
  exact ⟨⟨decode_8xy6 x y, _, rfl, setRegFlag_writesRegAndFlag (shrResult_toNat (s.reg x)) (shrFlag_eq (s.reg x))⟩,
    ⟨decode_8xyE x y, _, rfl, setRegFlag_writesRegAndFlag (shlResult_toNat (s.reg x)) (shlFlag_eq (s.reg x))⟩⟩

end Sys2Proof.Proofs.Alu
end

section
/-! PROOFS. The statements of spec/42_compare_skip.md: each skip sets `PC` by its condition and changes nothing else
(R200 to R204). -/

namespace Sys2Proof.Proofs.CompareSkip

open Sys2Proof.Machine Sys2Proof.Claims Sys2Proof.Proofs.RuleWords

/-! ### Decoding (R104 rows 5 to 7 and 19) -/

theorem decode_3xkk (x : Nibble) (kk : Byte) : decode (wordXKK 0x3000 x kk) = .known (.seImm x kk) :=
  (congrArg decode (wordXKK_family 0x3#4 x kk)).trans (by simp [decode])

theorem decode_4xkk (x : Nibble) (kk : Byte) : decode (wordXKK 0x4000 x kk) = .known (.sneImm x kk) :=
  (congrArg decode (wordXKK_family 0x4#4 x kk)).trans (by simp [decode])

theorem decode_5xy0 (x y : Nibble) : decode (wordXY 0x5000 x y) = .known (.seReg x y) :=
  (congrArg decode (wordXY_family 0x5#4 x y 0x0#4)).trans (by simp [decode])

theorem decode_9xy0 (x y : Nibble) : decode (wordXY 0x9000 x y) = .known (.sneReg x y) :=
  (congrArg decode (wordXY_family 0x9#4 x y 0x0#4)).trans (by simp [decode])

/-! ### A skip by the condition that its test decides (R200) -/

theorem next_skipIf {c : Bool} {p : Prop} [Decidable p] (s : State) (h : c = true ↔ p) :
    (.next (s.skipIf c) : Host.Outcome State Fault Refusal) =
      .next { s with pc := if p then s.pc + 4 else s.pc + 2 } := by
  simp only [State.skipIf, h]

/-- Settles O31: the four meanings are one skip, each with a test that decides the condition of its rule. -/
theorem skipsWriteOnlyThePc : Obligations.SkipsWriteOnlyThePc :=
  ⟨fun x kk s => ⟨decode_3xkk x kk, next_skipIf s beq_iff_eq, decode_4xkk x kk, next_skipIf s bne_iff_ne⟩,
    fun x y s => ⟨decode_5xy0 x y, next_skipIf s beq_iff_eq, decode_9xy0 x y, next_skipIf s bne_iff_ne⟩⟩

end Sys2Proof.Proofs.CompareSkip
end

section
/-! PROOFS. More words as the instruction rules write them, laid out by the formats of spec/30_encoding.md R102: a base
with an address, and a base with one register and a fixed low byte. -/

namespace Sys2Proof.Proofs.RuleWords

open Sys2Proof.Claims

/-- A base with the family alone makes a word of format NNN. -/
theorem wordNNN_family (o : Nibble) (nnn : Addr12) : wordNNN (o ++ 0#12) nnn = o ++ nnn := by
  apply BitVec.eq_of_getLsbD_eq; intro i hi
  simp only [wordNNN, bit_nnn, BitVec.getLsbD_or, BitVec.getLsbD_setWidth, BitVec.getLsbD_zero]
  interval_cases i <;> simp

/-- A base with the family and the low byte makes a word of formats X and XKK. -/
theorem wordX_family (o x : Nibble) (kk : Byte) : wordX (o ++ 0#4 ++ kk) x = o ++ x ++ kk := by
  apply BitVec.eq_of_getLsbD_eq; intro i hi
  simp only [wordX, bit_xkk, BitVec.getLsbD_or, BitVec.getLsbD_shiftLeft, BitVec.getLsbD_setWidth,
    BitVec.getLsbD_zero]
  interval_cases i <;> simp

end Sys2Proof.Proofs.RuleWords
end

section
/-! PROOFS. The statements of spec/43_index_memory.md: the instructions that write `I` (R221 to R223), and the transfers at
`I`, each whole or a fault with nothing written (R224 to R228; 20_memory.md R74, R75). -/

namespace Sys2Proof.Proofs.IndexMemory

open Sys2Proof.Machine Sys2Proof.Claims Sys2Proof.Proofs.RuleWords Sys2Proof.Proofs.Encoding

/-! ### Decoding (R104 rows 20 and 30 to 34) -/

theorem decode_Annn (nnn : Addr12) : decode (wordNNN 0xA000 nnn) = .known (.ldI nnn) :=
  (congrArg decode (wordNNN_family 0xA#4 nnn)).trans (by simp [decode])

/-- A word of family F is decoded by its low byte, whatever the register. -/
theorem decode_Fxkk (x : Nibble) (kk : Byte) :
    decode (wordX (0xF#4 ++ 0#4 ++ kk) x) = decodeFamilyF (0xF#4 ++ x ++ kk) := by
  rw [wordX_family]
  simp [decode]

theorem decode_Fx1E (x : Nibble) : decode (wordX 0xF01E x) = .known (.addIVx x) :=
  (decode_Fxkk x 0x1E#8).trans (by simp [decodeFamilyF])

theorem decode_Fx29 (x : Nibble) : decode (wordX 0xF029 x) = .known (.ldFVx x) :=
  (decode_Fxkk x 0x29#8).trans (by simp [decodeFamilyF])

theorem decode_Fx33 (x : Nibble) : decode (wordX 0xF033 x) = .known (.ldBVx x) :=
  (decode_Fxkk x 0x33#8).trans (by simp [decodeFamilyF])

theorem decode_Fx55 (x : Nibble) : decode (wordX 0xF055 x) = .known (.storeRegs x) :=
  (decode_Fxkk x 0x55#8).trans (by simp [decodeFamilyF])

theorem decode_Fx65 (x : Nibble) : decode (wordX 0xF065 x) = .known (.loadRegs x) :=
  (decode_Fxkk x 0x65#8).trans (by simp [decodeFamilyF])

/-! ### The instructions that write `I` (R221 to R223) -/

theorem zext16_toNat (nnn : Addr12) : (zext16 nnn).toNat = nnn.toNat :=
  BitVec.toNat_setWidth_of_le (by decide)

theorem lowNibble_toNat (b : Byte) : (lowNibble b).toNat = b.toNat % 16 := by
  simp [lowNibble, BitVec.extractLsb'_toNat]

/-- The glyph of a digit starts at 5 times the digit, the font standing at 0 (D11), and far from the end of memory. -/
theorem glyphAddress_toNat (d : Nibble) : (BitVec.ofNat 16 (hardware.fontBase + 5 * d.toNat)).toNat = 5 * d.toNat := by
  have hd : d.toNat < 16 := d.isLt
  have hbase : hardware.fontBase = 0 := rfl
  rw [BitVec.toNat_ofNat, hbase, Nat.zero_add, Nat.mod_eq_of_lt (by omega)]

/-- Settles O32: each meaning is one write of `I`, whose value is the immediate, the wrapped sum, the glyph's address. -/
theorem indexInstructionsWriteOnlyI : Obligations.IndexInstructionsWriteOnlyI := by
  refine ⟨fun nnn s => ⟨decode_Annn nnn, _, rfl, rfl, zext16_toNat nnn⟩, fun x s =>
    ⟨⟨decode_Fx1E x, _, rfl, rfl, BitVec.toNat_ofNat ..⟩, decode_Fx29 x, _, rfl, rfl, ?_⟩⟩
  exact (glyphAddress_toNat _).trans (congrArg (5 * ·) (lowNibble_toNat (s.reg x)))

/-! ### The checks of a transfer of `n + 1` bytes from a word address (R224; 20_memory.md R74, R75) -/

theorem inFont_iff (a : Nat) : inFont a = true ↔ a ≤ 0x4F := by
  have hbase : hardware.fontBase = 0 := rfl
  rw [inFont, hbase, Bool.and_eq_true, decide_eq_true_eq, decide_eq_true_eq]
  omega

/-- The least failing address: the transfer's first where that is outside itself, else 0x1000. -/
theorem firstOutOfRange_outside {a : Word} {n : Nat} (h : 0xFFF < a.toNat + n) :
    firstOutOfRange a.toNat (n + 1) = some (leastOutside a).toNat := by
  rw [firstOutOfRange_some, leastOutside]
  by_cases ha : 0xFFF < a.toNat
  · rw [if_pos ha]
    exact ⟨le_refl _, by omega, ha, fun k hk hlt => by omega⟩
  · have hend : (0x1000 : Word).toNat = 0x1000 := rfl
    rw [if_neg ha, hend]
    exact ⟨by omega, by omega, by decide, fun k hk hlt => by omega⟩

theorem loadFault_outside {a : Word} {n : Nat} (h : 0xFFF < a.toNat + n) :
    loadFault a.toNat (n + 1) = some (.memOutOfRange, (leastOutside a).toNat) := by
  rw [loadFault, firstOutOfRange_outside h, Option.map_some]

theorem loadFault_inside {a n : Nat} (h : a + n ≤ 0xFFF) : loadFault a (n + 1) = none :=
  (loadFault_none a (n + 1)).2 (.inr (by omega))

theorem storeFault_outside {a : Word} {n : Nat} (h : 0xFFF < a.toNat + n) :
    storeFault a.toNat (n + 1) = some (.memOutOfRange, (leastOutside a).toNat) := by
  rw [storeFault, firstOutOfRange_outside h]

/-- A store that starts in the font touches it first at its own first address; no transfer is long enough to reach from
there past the end of memory, so the range check passes. -/
theorem storeFault_font {a n : Nat} (ha : a ≤ 0x4F) (hn : n < 16) : storeFault a (n + 1) = some (.fontWrite, a) := by
  have hrange : firstOutOfRange a (n + 1) = none := (firstOutOfRange_none a (n + 1)).2 (.inr (by omega))
  have hfont : firstInFont a (n + 1) = some a :=
    (firstInFont_some a (n + 1) a).2 ⟨le_refl a, by omega, (inFont_iff a).2 ha, fun k hk hlt => by omega⟩
  rw [storeFault, hrange, hfont, Option.map_some]

theorem storeFault_inside {a n : Nat} (hlo : 0x50 ≤ a) (hhi : a + n ≤ 0xFFF) : storeFault a (n + 1) = none := by
  refine (storeFault_none a (n + 1)).2 ⟨.inr (by omega), fun k hk _ => ?_⟩
  rw [Bool.eq_false_iff, ne_eq, inFont_iff]
  omega

/-! ### A faulting transfer, in the words of the statements (60_exceptions.md R310, R311) -/

/-- The record's word is the one the instruction was decoded from, and its address the word `a`. -/
theorem raise_eq_faulted {w : Word} {i : Instr} (hi : decode w = .known i) (s : State) (c : FaultCode) (a : Word) :
    raise s c (encode i) a.toNat = faulted s c w a := by
  rw [raise, faulted, encode_of_decode hi, BitVec.ofNat_toNat, BitVec.setWidth_eq]

theorem storeAtI_fault {w a newI : Word} {i : Instr} {bs : List Byte} {s : State} {c : FaultCode}
    (hi : decode w = .known i) (hf : storeFault s.i.toNat bs.length = some (c, a.toNat)) :
    storeAtI i bs newI s = faulted s c w a := by
  rw [storeAtI, hf, ← raise_eq_faulted hi]

/-! ### A store at `I` (R224) -/

/-- The bytes stand from `I` upwards and nothing else has changed but `PC`, by 2. -/
def StoredAtI (bs : List Byte) (s t : State) : Prop :=
  t = { s with mem := t.mem, pc := s.pc + 2 } ∧
    (∀ k (h : k < bs.length), t.byteAt (s.i.toNat + k) = bs[k]) ∧
    ∀ a, a < s.i.toNat ∨ s.i.toNat + bs.length ≤ a → t.byteAt a = s.byteAt a

/-- A store that passes its checks and leaves `I` as it was. -/
theorem storeAtI_stored {i : Instr} {bs : List Byte} {s : State} (hf : storeFault s.i.toNat bs.length = none) :
    StoredAtI bs s (storeAtI i bs s.i s) := by
  rw [storeAtI, hf]
  exact ⟨rfl, fun k hk => (read_writeList bs s.mem s.i.toNat (s.i.toNat + k)).trans (by simp [hk]),
    fun a ha => read_writeList_other bs s.mem s.i.toNat a ha⟩

/-- Every store of `n + 1` bytes at `I`, at most 16, by where `I` points: outside memory, into the font, or stored. -/
theorem storeAtI_outcomes {w : Word} {i : Instr} {bs : List Byte} {n : Nat} (s : State) (hi : decode w = .known i)
    (hlen : bs.length = n + 1) (hn : n < 16) :
    (0xFFF < s.i.toNat + n → storeAtI i bs s.i s = faulted s .memOutOfRange w (leastOutside s.i)) ∧
    (s.i.toNat ≤ 0x4F → storeAtI i bs s.i s = faulted s .fontWrite w s.i) ∧
    (0x50 ≤ s.i.toNat → s.i.toNat + n ≤ 0xFFF → StoredAtI bs s (storeAtI i bs s.i s)) :=
  ⟨fun hout => storeAtI_fault hi (hlen ▸ storeFault_outside hout),
    fun hfont => storeAtI_fault hi (hlen ▸ storeFault_font hfont hn),
    fun hlo hhi => storeAtI_stored (hlen ▸ storeFault_inside hlo hhi)⟩

/-! ### FX33 (R225, R226) -/

/-- The digits stand at `I`, hundreds first; each fits a byte, so none is narrowed. -/
theorem byteAt_bcdDigits {b : Byte} {s t : State} (h : StoredAtI (bcdDigits b) s t) :
    (t.byteAt s.i.toNat).toNat = b.toNat / 100 ∧ (t.byteAt (s.i.toNat + 1)).toNat = b.toNat / 10 % 10 ∧
      (t.byteAt (s.i.toNat + 2)).toNat = b.toNat % 10 := by
  obtain ⟨-, hbytes, -⟩ := h
  have hundreds : t.byteAt s.i.toNat = BitVec.ofNat 8 (b.toNat / 100) := hbytes 0 (by simp [bcdDigits])
  have tens : t.byteAt (s.i.toNat + 1) = BitVec.ofNat 8 (b.toNat / 10 % 10) := hbytes 1 (by simp [bcdDigits])
  have ones : t.byteAt (s.i.toNat + 2) = BitVec.ofNat 8 (b.toNat % 10) := hbytes 2 (by simp [bcdDigits])
  have hb : b.toNat < 256 := b.isLt
  rw [hundreds, tens, ones]
  exact ⟨Nat.mod_eq_of_lt (by omega), Nat.mod_eq_of_lt (by omega), Nat.mod_eq_of_lt (by omega)⟩

/-- Settles O33: FX33 is a store at `I` of the three digits. -/
theorem bcdStoresThreeDigitsOrFaults : Obligations.BcdStoresThreeDigitsOrFaults := by
  intro x s
  obtain ⟨hout, hfont, hin⟩ :=
    storeAtI_outcomes s (decode_Fx33 x) (bcdDigits_length (s.reg x)) (by decide : (2 : Nat) < 16)
  refine ⟨decode_Fx33 x, fun h => congrArg Host.Outcome.next (hout h),
    fun h => congrArg Host.Outcome.next (hfont h), fun hlo hhi => ?_⟩
  obtain ⟨hundreds, tens, ones⟩ := byteAt_bcdDigits (hin hlo hhi)
  obtain ⟨hframe, -, hother⟩ := hin hlo hhi
  rw [bcdDigits_length] at hother
  exact ⟨_, rfl, hframe, hundreds, tens, ones, fun a ha => hother a (by omega)⟩

/-! ### FX55 (R227) -/

/-- Settles O34: FX55 is a store at `I` of the registers up to `x`; at this hardware's QUIRK_LOADSTORE_I (D4) it leaves
`I`. -/
theorem storeRegistersWritesVXAtIOrFaults : Obligations.StoreRegistersWritesVXAtIOrFaults := by
  intro x s
  obtain ⟨hout, hfont, hin⟩ := storeAtI_outcomes s (decode_Fx55 x) (regsUpTo_length x s) x.isLt
  refine ⟨decode_Fx55 x, fun h => congrArg Host.Outcome.next (hout h),
    fun h => congrArg Host.Outcome.next (hfont h), fun hlo hhi => ?_⟩
  obtain ⟨hframe, hbytes, hother⟩ := hin hlo hhi
  rw [regsUpTo_length] at hother
  refine ⟨_, rfl, hframe, fun k hk => ?_, fun a ha => hother a (by omega)⟩
  have hbyte := hbytes k.toNat (by rw [regsUpTo_length]; omega)
  rwa [regsUpTo_get, BitVec.ofNat_toNat, BitVec.setWidth_eq] at hbyte

/-! ### FX65 (R228) -/

/-- The registers up to `x` take the bytes from `I` upwards, VF like the others. -/
theorem setRegs_bytesAtI_reg (x r : Nibble) (s : State) :
    (s.setRegs 0 (bytesAtI (x.toNat + 1) s)).reg r =
      if r.toNat ≤ x.toNat then s.byteAt (s.i.toNat + r.toNat) else s.reg r := by
  have hx : x.toNat < 16 := x.isLt
  have hlen := bytesAtI_length (x.toNat + 1) s
  rw [setRegs_reg _ s 0 r (by omega)]
  by_cases h : r.toNat ≤ x.toNat
  · rw [if_pos h, dif_pos (by omega), bytesAtI_get, Nat.sub_zero]
  · rw [if_neg h, dif_neg (by omega)]

theorem exec_loadRegs_fault {x : Nibble} {s : State} {c : FaultCode} {a : Word}
    (hf : loadFault s.i.toNat (x.toNat + 1) = some (c, a.toNat)) :
    exec (.loadRegs x) s = .next (faulted s c (wordX 0xF065 x) a) := by
  rw [exec, execLoadRegs, hf, ← raise_eq_faulted (decode_Fx65 x)]

/-- At this hardware's QUIRK_LOADSTORE_I (D4) a load leaves `I`. -/
theorem exec_loadRegs_next {x : Nibble} {s : State} (hf : loadFault s.i.toNat (x.toNat + 1) = none) :
    exec (.loadRegs x) s =
      .next { s with v := (s.setRegs 0 (bytesAtI (x.toNat + 1) s)).v, pc := s.pc + 2 } := by
  rw [exec, execLoadRegs, hf]
  dsimp only
  rw [setRegs_frame]
  rfl

/-- Settles O35, by the range check of the load. -/
theorem loadRegistersReadsVXFromIOrFaults : Obligations.LoadRegistersReadsVXFromIOrFaults := by
  intro x s
  exact ⟨decode_Fx65 x, fun hout => exec_loadRegs_fault (loadFault_outside hout),
    fun hin => ⟨_, exec_loadRegs_next (loadFault_inside hin), rfl, fun r => setRegs_bytesAtI_reg x r s⟩⟩

end Sys2Proof.Proofs.IndexMemory
end

section
/-! PROOFS. The words of DXYN as its rule writes them, laid out by the format XYN of spec/30_encoding.md R102. -/

namespace Sys2Proof.Proofs.RuleWords

open Sys2Proof.Claims

/-- A base with the family alone makes a word of format XYN. -/
theorem wordXYN_family (o x y n : Nibble) : wordXYN (o ++ 0#12) x y n = o ++ x ++ y ++ n := by
  apply BitVec.eq_of_getLsbD_eq; intro i hi
  simp only [wordXYN, bit_xyn, bit_nnn, BitVec.getLsbD_or, BitVec.getLsbD_shiftLeft, BitVec.getLsbD_setWidth,
    BitVec.getLsbD_zero]
  interval_cases i <;> simp

end Sys2Proof.Proofs.RuleWords
end

section
/-! PROOFS. The statements of spec/44_display_random.md: the masked random byte (R250, R251), the clear (R252), and the
sprite draw, once (R253) and twice (R254). -/

namespace Sys2Proof.Proofs.DisplayRandom

open Sys2Proof.Machine Sys2Proof.Claims Sys2Proof.Proofs.RuleWords Sys2Proof.Proofs.IndexMemory

/-! ### Random and clear (R251, R252) -/

theorem decode_Cxkk (x : Nibble) (kk : Byte) : decode (wordXKK 0xC000 x kk) = .known (.rnd x kk) :=
  (congrArg decode (wordXKK_family 0xC#4 x kk)).trans (by simp [decode])

/-- Settles O36: one register write of the masked byte, and one more draw counted. -/
theorem randomIsMasked : Obligations.RandomIsMasked :=
  fun x kk s => ⟨decode_Cxkk x kk, _, rfl, rfl, fun r => setReg_reg s x r _⟩

/-- Settles O37: the framebuffer is replaced by the clear one. -/
theorem clearScreenClearsEveryPixel : Obligations.ClearScreenClearsEveryPixel :=
  fun _ => ⟨rfl, _, rfl, rfl, get_clear⟩

/-! ### The pixels of a sprite (R253) -/

theorem decode_Dxyn (x y n : Nibble) : decode (wordXYN 0xD000 x y n) = .known (.drw x y n) :=
  (congrArg decode (wordXYN_family 0xD#4 x y n)).trans (by simp [decode])

/-- The pixels that DXYN inverts in `s`, in the order R253 draws them. -/
def coveredPixels (s : State) (x y n : Nibble) : List Pixel :=
  spritePixels (s.reg x) (s.reg y) 0 (bytesAtI n.toNat s)

theorem spritePlace_eq_iff (x0 y0 : Byte) (r c : Nat) (q : Pixel) :
    spritePlace x0 y0 r c = q ↔ q.col.val = (x0.toNat + c) % 64 ∧ q.row.val = (y0.toNat + r) % 32 := by
  constructor
  · rintro rfl
    exact ⟨rfl, rfl⟩
  · rintro ⟨hcol, hrow⟩
    exact Pixel.ext' _ q hrow.symm hcol.symm

theorem mem_coveredPixels {s : State} {x y n : Nibble} {q : Pixel} :
    q ∈ coveredPixels s x y n ↔ Covered s x y n q := by
  simp only [coveredPixels, mem_spritePixels, bytesAtI_length, bytesAtI_get, Nat.zero_add, spritePlace_eq_iff]
  constructor
  · rintro ⟨r, hr, c, hcovered⟩
    exact ⟨r, c, hr, hcovered⟩
  · rintro ⟨r, c, hr, hcovered⟩
    exact ⟨r, hr, c, hcovered⟩

/-- A sprite has at most 15 rows, so none of its pixels is inverted twice. -/
theorem coveredPixels_nodup (s : State) (x y n : Nibble) : (coveredPixels s x y n).Nodup := by
  have hn : n.toNat < 16 := n.isLt
  have hlen := bytesAtI_length n.toNat s
  exact spritePixels_nodup _ _ _ 0 (by omega)

/-- What decides the pixels of a sprite: its coordinates, `I`, and its bytes. -/
theorem coveredPixels_congr {s s' : State} {x y n : Nibble} (hx : s'.reg x = s.reg x) (hy : s'.reg y = s.reg y)
    (hi : s'.i = s.i) (hbytes : ∀ k, k < n.toNat → s'.byteAt (s.i.toNat + k) = s.byteAt (s.i.toNat + k)) :
    coveredPixels s' x y n = coveredPixels s x y n := by
  have hrows : bytesAtI n.toNat s' = bytesAtI n.toNat s := by
    rw [bytesAtI, bytesAtI, hi]
    exact List.map_congr_left fun k hk => hbytes k (List.mem_range.1 hk)
  rw [coveredPixels, coveredPixels, hx, hy, hrows]

/-- A sprite covers some pixel exactly when it has a set bit. -/
theorem exists_covered_iff (s : State) (x y n : Nibble) : (∃ q, Covered s x y n q) ↔ HasSetBit s n := by
  constructor
  · rintro ⟨q, r, c, hr, hc, hbit, -⟩
    exact ⟨r, c, hr, hc, hbit⟩
  · rintro ⟨r, c, hr, hc, hbit⟩
    exact ⟨spritePlace (s.reg x) (s.reg y) r c, r, c, hr, hc, hbit, rfl, rfl⟩

/-! ### One draw (R253) -/

/-- The state after DXYN has drawn its sprite. -/
def afterDraw (s : State) (x y n : Nibble) : State :=
  let drawn := drawPixels (coveredPixels s x y n) s.fb
  ((s.setFb drawn.1).setReg 0xF#4 (flagByte drawn.2)).advance

/-- The range check of DXYN passes exactly where its sprite fits. -/
theorem loadFault_none_iff_spriteFits (s : State) (n : Nibble) :
    loadFault s.i.toNat n.toNat = none ↔ SpriteFits s n := by
  rw [loadFault_none, SpriteFits, ← BitVec.toNat_inj]
  rfl

theorem exec_drw_fits {s : State} {n : Nibble} (x y : Nibble) (hfit : SpriteFits s n) :
    exec (.drw x y n) s = .next (afterDraw s x y n) := by
  rw [exec, execDrw, (loadFault_none_iff_spriteFits s n).2 hfit]
  rfl

theorem exec_drw_outside {s : State} {n : Nibble} (x y : Nibble) (hout : ¬ SpriteFits s n) :
    exec (.drw x y n) s = .next (faulted s .memOutOfRange (wordXYN 0xD000 x y n) (leastOutside s.i)) := by
  rw [← loadFault_none_iff_spriteFits, loadFault_none, not_or] at hout
  obtain ⟨hn, hend⟩ := hout
  obtain ⟨m, hm⟩ := Nat.exists_eq_succ_of_ne_zero hn
  have hfault : loadFault s.i.toNat n.toNat = some (.memOutOfRange, (leastOutside s.i).toNat) := by
    rw [hm]
    exact loadFault_outside (by omega)
  rw [exec, execDrw, hfault, ← raise_eq_faulted (decode_Dxyn x y n)]

theorem afterDraw_get (s : State) (x y n : Nibble) (q : Pixel) :
    (afterDraw s x y n).fb.get q = (s.fb.get q ^^ decide (q ∈ coveredPixels s x y n)) :=
  drawPixels_get _ s.fb q (coveredPixels_nodup s x y n)

theorem afterDraw_flag (s : State) (x y n : Nibble) :
    (afterDraw s x y n).reg 0xF#4 = flagByte ((coveredPixels s x y n).any s.fb.get) := by
  simp [afterDraw, drawPixels_collision _ _ (coveredPixels_nodup s x y n)]

theorem afterDraw_reg {s : State} {x y n r : Nibble} (hr : r ≠ 0xF#4) : (afterDraw s x y n).reg r = s.reg r := by
  simp [afterDraw, hr]

theorem flagByte_eq_one_iff (b : Bool) : flagByte b = 1 ↔ b = true := by
  cases b <;> decide

theorem flagByte_eq_zero_iff (b : Bool) : flagByte b = 0 ↔ b = false := by
  cases b <;> decide

/-- A test holds at some pixel the sprite inverts exactly when it holds at some covered one. -/
theorem any_coveredPixels_iff (s : State) (x y n : Nibble) (p : Pixel → Bool) :
    (coveredPixels s x y n).any p = true ↔ ∃ q, Covered s x y n q ∧ p q = true := by
  simp only [List.any_eq_true, mem_coveredPixels]

/-- Settles O38: the sprite's pixels are distinct, so each is inverted once and the collision is with the framebuffer
before the draw. -/
theorem drawInvertsTheSpritesPixels : Obligations.DrawInvertsTheSpritesPixels := by
  intro x y n s
  refine ⟨decode_Dxyn x y n, exec_drw_outside x y, fun hfit =>
    ⟨afterDraw s x y n, exec_drw_fits x y hfit, rfl, fun q => ?_, fun hset => ?_, fun hnone => ?_,
      fun r => afterDraw_reg⟩⟩
  · rw [afterDraw_get, ← mem_coveredPixels]
    by_cases hq : q ∈ coveredPixels s x y n <;> simp [hq]
  · rw [afterDraw_flag, flagByte_eq_one_iff]
    exact (any_coveredPixels_iff s x y n s.fb.get).2 hset
  · rw [afterDraw_flag, flagByte_eq_zero_iff, Bool.eq_false_iff]
    exact fun hany => hnone ((any_coveredPixels_iff s x y n s.fb.get).1 hany)

/-! ### The same sprite drawn twice (R254) -/

/-- The same pixels inverted again in the framebuffer of the first draw give the original framebuffer. -/
theorem afterDraw_twice_fb {s s' : State} {x y n : Nibble} (hfb : s'.fb = (afterDraw s x y n).fb)
    (hpixels : coveredPixels s' x y n = coveredPixels s x y n) : (afterDraw s' x y n).fb = s.fb := by
  change (drawPixels (coveredPixels s' x y n) s'.fb).1 = s.fb
  rw [hpixels, hfb]
  exact drawPixels_twice _ s.fb (coveredPixels_nodup s x y n)

/-- A covered pixel is set after the first draw exactly when it was unset before, so that is what the second one collides
with. -/
theorem afterDraw_twice_flag {s s' : State} {x y n : Nibble} (hfb : s'.fb = (afterDraw s x y n).fb)
    (hpixels : coveredPixels s' x y n = coveredPixels s x y n) :
    (afterDraw s' x y n).reg 0xF#4 = flagByte ((coveredPixels s x y n).any fun q => !s.fb.get q) := by
  rw [afterDraw_flag, hpixels, hfb]
  refine congrArg flagByte (Bool.eq_iff_iff.2 ?_)
  rw [List.any_eq_true, List.any_eq_true]
  refine exists_congr fun q => and_congr_right fun hq => ?_
  rw [afterDraw_get, decide_eq_true hq, Bool.xor_true]

/-- The second draw of a sprite, in the words of the statements. -/
theorem secondDraw {x y n : Nibble} {s t s' u : State} (hfit : SpriteFits s n)
    (hfirst : exec (.drw x y n) s = .next t) (hfb : s'.fb = t.fb) (hx : s'.reg x = s.reg x) (hy : s'.reg y = s.reg y)
    (hi : s'.i = s.i) (hbytes : ∀ k, k < n.toNat → s'.byteAt (s.i.toNat + k) = s.byteAt (s.i.toNat + k))
    (hsecond : exec (.drw x y n) s' = .next u) :
    u.fb = s.fb ∧ u.reg 0xF#4 = flagByte ((coveredPixels s x y n).any fun q => !s.fb.get q) := by
  have hfit' : SpriteFits s' n := by rwa [SpriteFits, hi]
  have hpixels := coveredPixels_congr hx hy hi hbytes
  cases (exec_drw_fits x y hfit).symm.trans hfirst
  cases (exec_drw_fits x y hfit').symm.trans hsecond
  exact ⟨afterDraw_twice_fb hfb hpixels, afterDraw_twice_flag hfb hpixels⟩

/-- Settles O39, by the second draw's framebuffer and flag. -/
theorem drawingTwiceRestoresTheFramebuffer : Obligations.DrawingTwiceRestoresTheFramebuffer := by
  intro x y n s t s' u hfit hfirst hfb hx hy hi hbytes hsecond
  obtain ⟨hrestored, hflag⟩ := secondDraw hfit hfirst hfb hx hy hi hbytes hsecond
  refine ⟨hrestored, ?_⟩
  rw [hflag, flagByte_eq_one_iff, any_coveredPixels_iff]
  simp only [Bool.not_eq_true']

/-- Settles O48: where every covered pixel was unset, "some covered pixel was unset" is "some pixel is covered", which is
that the sprite has a set bit. -/
theorem secondDrawFlagsTheSpritesSetBits : Obligations.SecondDrawFlagsTheSpritesSetBits := by
  intro x y n s t s' u hfit hfirst hfb hx hy hi hbytes hsecond hunset
  obtain ⟨-, hflag⟩ := secondDraw hfit hfirst hfb hx hy hi hbytes hsecond
  have hany : ((coveredPixels s x y n).any fun q => !s.fb.get q) = true ↔ HasSetBit s n := by
    rw [any_coveredPixels_iff, ← exists_covered_iff s x y n]
    exact exists_congr fun q => and_iff_left_of_imp fun hq => by rw [hunset q hq, Bool.not_false]
  rw [hflag, flagByte_eq_one_iff, flagByte_eq_zero_iff, Bool.eq_false_iff, ne_eq, hany]
  exact ⟨id, id⟩

end Sys2Proof.Proofs.DisplayRandom
end

section
/-! PROOFS. The statements of spec/45_control_transfer.md about the instructions: jumps (R271, R274), calls and returns
(R272, R273; 10_state.md R35, R36), their nesting, and the words 0NNN that are no instruction (R275). -/

namespace Sys2Proof.Proofs.ControlTransfer

open Sys2Proof.Machine Sys2Proof.Claims Sys2Proof.Proofs.RuleWords Sys2Proof.Proofs.Encoding Sys2Proof.Proofs.IndexMemory

/-! ### Decoding (R104 rows 3, 4 and 21, and R107) -/

theorem decode_1nnn (nnn : Addr12) : decode (wordNNN 0x1000 nnn) = .known (.jp nnn) :=
  (congrArg decode (wordNNN_family 0x1#4 nnn)).trans (by simp [decode])

theorem decode_2nnn (nnn : Addr12) : decode (wordNNN 0x2000 nnn) = .known (.call nnn) :=
  (congrArg decode (wordNNN_family 0x2#4 nnn)).trans (by simp [decode])

theorem decode_Bnnn (nnn : Addr12) : decode (wordNNN 0xB000 nnn) = .known (.jpV0 nnn) :=
  (congrArg decode (wordNNN_family 0xB#4 nnn)).trans (by simp [decode])

theorem nnnField_0nnn (nnn : Addr12) : nnnField (wordNNN 0x0000 nnn) = nnn :=
  (congrArg nnnField (wordNNN_family 0x0#4 nnn)).trans (by simp)

theorem decode_0nnn (nnn : Addr12) : decode (wordNNN 0x0000 nnn) = decodeFamily0 (wordNNN 0x0000 nnn) := by
  have hfamily : opField (wordNNN 0x0000 nnn) = 0x0#4 :=
    (congrArg opField (wordNNN_family 0x0#4 nnn)).trans (by simp)
  rw [decode, hfamily]
  rfl

/-- Family 0 has two instructions, each with its own address field (R107). -/
theorem decode_sys {nnn : Addr12} (hcls : nnn ≠ 0x0E0) (hret : nnn ≠ 0x0EE) :
    decode (wordNNN 0x0000 nnn) = .unknown (wordNNN 0x0000 nnn) := by
  rw [decode_0nnn, decodeFamily0, nnnField_0nnn]
  split
  · exact absurd rfl hcls
  · exact absurd rfl hret
  · rfl

/-- Settles O8: the word is unknown, so it is one of R106's illegal words, and those halt the cycle that fetches them. -/
theorem sysWordsHaltTheEngine : Obligations.SysWordsHaltTheEngine := by
  intro nnn hcls hret
  have hunknown := decode_sys hcls hret
  obtain ⟨hillegal, hhalts⟩ := illegalWordsAreUnknownAndFault (wordNNN 0x0000 nnn)
  exact ⟨hunknown, hhalts (hillegal.2 hunknown)⟩

/-! ### Jumps (R271, R274) -/

/-- At this hardware's QUIRK_JUMP_REG (D3) the register is V0; a 12-bit address and a byte never wrap at 16 bits. -/
theorem jumpTarget_toNat (nnn : Addr12) (s : State) :
    (BitVec.ofNat 16 ((zext16 nnn).toNat + (jumpOffset hardware.jumpRegister nnn s).toNat)).toNat =
      nnn.toNat + (s.reg 0).toNat := by
  have hoffset : jumpOffset hardware.jumpRegister nnn s = s.reg 0 := rfl
  have hnnn : nnn.toNat < 4096 := nnn.isLt
  have hV0 : (s.reg 0).toNat < 256 := (s.reg 0).isLt
  rw [hoffset, zext16_toNat, BitVec.toNat_ofNat, Nat.mod_eq_of_lt (by omega)]

/-- Settles O40: each meaning is one write of `PC`. -/
theorem jumpsWriteOnlyThePc : Obligations.JumpsWriteOnlyThePc :=
  fun nnn s => ⟨⟨decode_1nnn nnn, _, rfl, rfl, zext16_toNat nnn⟩, decode_Bnnn nnn, _, rfl, rfl, jumpTarget_toNat nnn s⟩

/-! ### Calls (R272; 10_state.md R35) -/

/-- The state after a CALL at a stack with room. -/
def afterCall (nnn : Addr12) (s : State) (h : s.sp.val < 16) : State :=
  { s with stack := s.stack.set s.sp.val (s.pc + 2) h, sp := ⟨s.sp.val + 1, by omega⟩, pc := zext16 nnn }

theorem exec_call_room (nnn : Addr12) {s : State} (h : s.sp.val < 16) :
    exec (.call nnn) s = .next (afterCall nnn s h) := by
  rw [exec, execCall, State.push, dif_pos h]
  rfl

theorem exec_call_full (nnn : Addr12) {s : State} (h : s.sp.val = 16) :
    exec (.call nnn) s = .next (faulted s .stackOverflow (wordNNN 0x2000 nnn) 0) := by
  rw [exec, execCall, State.push, dif_neg (by omega), ← raise_eq_faulted (decode_2nnn nnn)]
  rfl

/-- Only the slot at the stack pointer is written. -/
theorem afterCall_stack (nnn : Addr12) {s : State} (h : s.sp.val < 16) {k : Nat} (hk : k < 16) :
    (afterCall nnn s h).stack[k] = if k = s.sp.val then s.pc + 2 else s.stack[k] := by
  simp only [afterCall, Vector.getElem_set, eq_comm]

/-- Settles O41, by whether the stack has room. -/
theorem callPushesTheReturnAddressOrOverflows : Obligations.CallPushesTheReturnAddressOrOverflows :=
  fun nnn _ => ⟨decode_2nnn nnn, exec_call_full nnn,
    fun h => ⟨_, exec_call_room nnn h, rfl, rfl, zext16_toNat nnn, fun _ hk => afterCall_stack nnn h hk⟩⟩

/-! ### Returns (R273; 10_state.md R36, R38) -/

theorem exec_ret_empty {s : State} (h : s.sp.val = 0) :
    exec .ret s = .next (faulted s .stackUnderflow 0x00EE 0) := by
  rw [exec, execRet, State.pop, dif_neg (by omega)]
  rfl

theorem exec_ret_pops {s : State} {k : Nat} (hk : k < 16) (h : s.sp.val = k + 1) :
    exec .ret s = .next { s with sp := ⟨k, by omega⟩, pc := s.stack[k] } := by
  have htop : s.sp.val - 1 = k := by omega
  simp only [exec, execRet, State.pop, dif_pos (show 0 < s.sp.val by omega), htop]
  rfl

/-- Settles O42, by whether the stack holds an entry. -/
theorem returnPopsOrUnderflows : Obligations.ReturnPopsOrUnderflows :=
  fun _ => ⟨by decide, exec_ret_empty, fun _ hk h => ⟨_, exec_ret_pops hk h, rfl, rfl⟩⟩

/-! ### Calls and returns together -/

/-- Settles O43: the RET pops the slot the CALL has just written, which lies above the live entries. -/
theorem returnUndoesACall : Obligations.ReturnUndoesACall := by
  intro nnn s t _ pc hroom hcall hret
  obtain rfl : afterCall nnn s hroom = t := Host.Outcome.next.inj ((exec_call_room nnn hroom).symm.trans hcall)
  have hpop := exec_ret_pops (s := { afterCall nnn s hroom with pc := pc }) hroom rfl
  rw [afterCall_stack nnn hroom hroom, if_pos rfl] at hpop
  obtain rfl := Host.Outcome.next.inj (hpop.symm.trans hret)
  refine ⟨rfl, fun k hk => ?_⟩
  exact (afterCall_stack nnn hroom (by omega)).trans (if_neg (by omega))

/-- As many CALLs as the stack has room for run, each one entry deeper, and leave the engine state. -/
theorem execAll_calls (targets : List Addr12) : ∀ s : State, s.sp.val + targets.length ≤ 16 →
    ∃ t, execAll (targets.map .call) s = .next t ∧ t.engine = s.engine ∧ t.sp.val = s.sp.val + targets.length := by
  induction targets with
  | nil => exact fun s _ => ⟨s, rfl, rfl, rfl⟩
  | cons nnn targets ih =>
    intro s hlen
    rw [List.length_cons] at hlen ⊢
    have hroom : s.sp.val < 16 := by omega
    have hdepth : (afterCall nnn s hroom).sp.val = s.sp.val + 1 := rfl
    obtain ⟨t, hrun, hengine, hsp⟩ := ih (afterCall nnn s hroom) (by omega)
    refine ⟨t, ?_, hengine, by omega⟩
    rw [List.map_cons, execAll, exec_call_room nnn hroom]
    exact hrun

/-- Settles O44: sixteen CALLs fill the empty stack, and a CALL at a full stack overflows. -/
theorem seventeenthNestedCallOverflows : Obligations.SeventeenthNestedCallOverflows := by
  intro targets last s hlen hempty hrunning
  obtain ⟨t, hrun, hengine, hsp⟩ := execAll_calls targets s (by omega)
  have hfull : t.sp.val = 16 := by omega
  exact ⟨t, hrun, hengine.trans hrunning, hfull, exec_call_full last hfull⟩

end Sys2Proof.Proofs.ControlTransfer
end

section
/-! PROOFS. Every step keeps the invariant of the reachable states: first its parts (memory and font, the live stack
entries, the fault record), each kept by the operations that write them, then an instruction, a cycle, an event. -/

namespace Sys2Proof.Proofs.Invariant

open Sys2Proof.Machine Sys2Proof.Proofs.ExecutionCycle Sys2Proof.Proofs.IndexMemory

/-! ### Writes of bytes (20_memory.md R70, R74, R75) -/

/-- Bytes written outside the font leave its glyphs. -/
theorem font_read_writeList {m : Memory} {a : Nat} {bs : List Byte}
    (hm : ∀ k, inFont k = true → Memory.read m k = Memory.initial k)
    (hout : ∀ k, a ≤ k → k < a + bs.length → inFont k = false) :
    ∀ k, inFont k = true → Memory.read (Memory.writeList m a bs) k = Memory.initial k := by
  intro k hk
  have hoff : k < a ∨ a + bs.length ≤ k := by
    by_contra hin
    have hfont := hout k (by omega) (by omega)
    rw [hk] at hfont
    cases hfont
  rw [read_writeList_other bs m a k hoff, hm k hk]

/-- The range check of a store is what keeps memory canonical; with nothing to write there is nothing to keep. -/
theorem writeList_wf_of_storeFault {m : Memory} {a : Nat} {bs : List Byte} (h : storeFault a bs.length = none)
    (hm : Memory.wf m = true) : Memory.wf (Memory.writeList m a bs) = true := by
  obtain ⟨hempty | hin, -⟩ := (storeFault_none a bs.length).1 h
  · rw [List.eq_nil_of_length_eq_zero hempty]
    exact hm
  · exact writeList_wf bs m a hin hm

/-! ### The Call Stack (10_state.md R35, R36) -/

/-- The address after an instruction that was fetched (20_memory.md R77): even, and at most 0x1000. -/
theorem returnAddress_of_fetchable {a : Word} (h : fetchable a = true) : ReturnAddress (a + 2) := by
  obtain ⟨heven, hin⟩ := (fetchable_iff a).1 h
  have hsum : (a + 2).toNat = a.toNat + 2 := by bv_omega
  rw [ReturnAddress, hsum]
  omega

/-! ### States whose engine is not halted, and the fault record -/

section
variable {s t : State}

theorem fr_clear_of_notHalted (h : Inv s) (hE : s.engine ≠ .haltedOnFault) : s.fr = FaultRecord.clear :=
  h.clear (not_not.1 fun hcode => hE (h.halted.2 hcode))

/-- While the engine is not halted the clauses on the fault record ask that it is clear. -/
theorem inv_of_notHalted (hmem : Memory.wf t.mem = true) (hfont : FontIntact t) (hE : t.engine ≠ .haltedOnFault)
    (hfr : t.fr = FaultRecord.clear) (hwait : t.engine = .waitingForKey → fetchable t.pc = true)
    (hstack : ∀ k (h : k < t.sp.val), ReturnAddress (t.stack[k]'(by omega))) : Inv t := by
  have hcode : t.fr.code = none := by rw [hfr]; rfl
  exact ⟨hmem, hfont, iff_of_false hE (not_not.2 hcode), fun _ => hfr, absurd hcode, hwait, hstack⟩

/-- What the invariant does not speak of may change: registers, timers, framebuffer, latch, and the host's side. -/
theorem inv_frame (h : Inv s) (ht : t = { s with
    v := t.v, i := t.i, dt := t.dt, st := t.st, w := t.w, fb := t.fb, keys := t.keys, host := t.host }) : Inv t := by
  rw [ht]
  exact ⟨h.memory, h.font, h.halted, h.clear, h.faultPc, h.waiting, h.stack⟩

/-- A fault records `PC` and keeps all else (60_exceptions.md R311, R315). -/
theorem inv_raise (h : Inv s) (c : FaultCode) (w : Word) (a : Nat) : Inv (raise s c w a) :=
  ⟨h.memory, h.font, iff_of_true rfl nofun, nofun, fun _ => rfl, nofun, h.stack⟩

theorem inv_reset : Inv State.reset :=
  inv_of_notHalted rfl (fun _ _ => rfl) nofun rfl nofun nofun

/-! ### One instruction at a fetched address (40_execution_cycle.md R142) -/

/-- An instruction that leaves the engine running and `FR` as it was: what remains is memory and the Call Stack. -/
theorem inv_of_running (h : Inv s) (hE : s.engine = .running) (ht : t.engine = s.engine ∧ t.fr = s.fr)
    (hmem : Memory.wf t.mem = true) (hfont : FontIntact t)
    (hstack : ∀ k (h : k < t.sp.val), ReturnAddress (t.stack[k]'(by omega))) : Inv t := by
  obtain ⟨hengine, hfr⟩ := ht
  rw [hE] at hengine
  exact inv_of_notHalted hmem hfont (by simp [hengine]) (hfr.trans (fr_clear_of_notHalted h (by simp [hE])))
    (by simp [hengine]) hstack

theorem inv_plain (h : Inv s) (hE : s.engine = .running) (ht : PlainEffect s t) : Inv t := by
  obtain ⟨_, _, _, _, _, _, _, rfl⟩ := ht
  exact inv_of_running h hE ⟨rfl, rfl⟩ h.memory h.font h.stack

theorem inv_wait (h : Inv s) (hE : s.engine = .running) (hfetch : fetchable s.pc = true) (x : Nibble) :
    Inv { s with w := x, engine := .waitingForKey } := by
  have hfr : s.fr = FaultRecord.clear := fr_clear_of_notHalted h (by simp [hE])
  exact inv_of_notHalted h.memory h.font nofun hfr (fun _ => hfetch) h.stack

/-- The checks of a store keep memory canonical and the font intact (20_memory.md R74, R75). -/
theorem inv_store (h : Inv s) (hE : s.engine = .running) (ht : StoreEffect s t) : Inv t := by
  obtain ⟨bs, _, hcheck, rfl⟩ := ht
  obtain ⟨-, hout⟩ := (storeFault_none s.i.toNat bs.length).1 hcheck
  exact inv_of_running h hE ⟨rfl, rfl⟩ (writeList_wf_of_storeFault hcheck h.memory)
    (font_read_writeList h.font hout) h.stack

/-- A push writes the address after the CALL above the live entries. -/
theorem inv_push (h : Inv s) (hE : s.engine = .running) (hfetch : fetchable s.pc = true) (ht : PushEffect s t) :
    Inv t := by
  obtain ⟨hroom, _, rfl⟩ := ht
  refine inv_of_running h hE ⟨rfl, rfl⟩ h.memory h.font fun k hk => ?_
  by_cases htop : s.sp.val = k
  · simp only [Vector.getElem_set, if_pos htop]
    exact returnAddress_of_fetchable hfetch
  · simp only [Vector.getElem_set, if_neg htop]
    exact h.stack k (Nat.lt_of_le_of_ne (Nat.lt_succ_iff.1 hk) (Ne.symm htop))

/-- After a pop fewer entries are live, and they are as before. -/
theorem inv_pop (h : Inv s) (hE : s.engine = .running) (ht : PopEffect s t) : Inv t := by
  obtain ⟨_, rfl⟩ := ht
  exact inv_of_running h hE ⟨rfl, rfl⟩ h.memory h.font fun k hk =>
    h.stack k (Nat.lt_of_lt_of_le hk (Nat.sub_le _ _))

theorem inv_exec {i : Instr} (h : Inv s) (hE : s.engine = .running) (hfetch : fetchable s.pc = true)
    (ht : exec i s = .next t) : Inv t := by
  obtain ⟨u, hu, hcases⟩ := exec_cases i s
  obtain rfl : u = t := Host.Outcome.next.inj (hu.symm.trans ht)
  rcases hcases with ⟨hplain, -⟩ | ⟨c, a, rfl, -⟩ | ⟨x, -, rfl⟩ | ⟨hstore, -⟩ | ⟨hpush, -⟩ | ⟨hpop, -⟩
  · exact inv_plain h hE hplain
  · exact inv_raise h c (encode i) a
  · exact inv_wait h hE hfetch x
  · exact inv_store h hE hstore
  · exact inv_push h hE hfetch hpush
  · exact inv_pop h hE hpop

/-! ### One cycle (40_execution_cycle.md R140) -/

theorem inv_runInstruction (h : Inv s) (hE : s.engine = .running) (ht : runInstruction s = .next t) : Inv t := by
  rcases runInstruction_cases s with ⟨c, a, -, hr⟩ | ⟨-, w, -, hr⟩ | ⟨hfetch, i, -, hr⟩
  · cases hr.symm.trans ht
    exact inv_raise h c 0 a
  · cases hr.symm.trans ht
    exact inv_raise h .unknownInstruction w 0
  · exact inv_exec h hE (Option.isNone_iff_eq_none.2 hfetch) (hr.symm.trans ht)

theorem inv_poll (h : Inv s) (hE : s.engine = .waitingForKey) : Inv (poll s) := by
  rcases poll_cases s with ⟨-, hpoll⟩ | ⟨k, -, hpoll⟩
  · rw [hpoll]
    exact h
  · have hfr : s.fr = FaultRecord.clear := fr_clear_of_notHalted h (by simp [hE])
    rw [hpoll]
    exact inv_of_notHalted h.memory h.font nofun hfr nofun h.stack

theorem inv_cycle (h : Inv s) (ht : cycle s = .next t) : Inv t := by
  cases hE : s.engine with
  | haltedOnFault => cases (cycle_halted hE).symm.trans ht; exact h
  | waitingForKey => cases (cycle_waiting hE).symm.trans ht; exact inv_poll h hE
  | running =>
    rw [cycle, hE] at ht
    exact inv_runInstruction h hE ht

/-! ### The other events (00_scope.md R7) -/

theorem inv_tick (h : Inv s) : Inv (tick s) := by
  by_cases hE : s.engine = .haltedOnFault
  · rw [tick_halted hE]
    exact h
  · rw [tick_notHalted hE]
    exact inv_frame h rfl

/-- An image of at most 3584 bytes at 0x200 lies inside memory and above the font (70_reset_and_hazards.md R356). -/
theorem inv_loadCall {bytes : List Byte} (h : Inv s) (ht : loadCall bytes s = .next t) : Inv t := by
  unfold loadCall at ht
  split at ht
  · split at ht
    · cases ht
      exact inv_frame h rfl
    next hsize =>
      cases ht
      have hend : programStart + bytes.length ≤ memSize := by
        simp only [programStart, memSize, romMax] at hsize ⊢
        omega
      have hfont : ∀ k, programStart ≤ k → k < programStart + bytes.length → inFont k = false := fun k hk _ => by
        rw [Bool.eq_false_iff, ne_eq, inFont_iff]
        simp only [programStart] at hk
        omega
      exact ⟨writeList_wf bytes s.mem programStart hend h.memory, font_read_writeList h.font hfont, h.halted, h.clear,
        h.faultPc, h.waiting, h.stack⟩
  · cases ht

theorem inv_perform {e : HostEvent} (h : Inv s) (ht : perform e s = .next t) : Inv t := by
  cases e with
  | reset => cases ht; exact inv_frame inv_reset rfl
  | load bytes => exact inv_loadCall h ht
  | cycle => exact inv_cycle (s := closeLoad s) (inv_frame h rfl) ht
  | tick => cases ht; exact inv_tick h
  | keyWrite k down => cases ht; exact inv_frame h rfl

end

/-- Settles O20: taking the event off the script touches no clause, and each event keeps them all. -/
theorem everyStepKeepsTheInvariant : Obligations.EveryStepKeepsTheInvariant :=
  fun s _ h ht => inv_perform (s := takeEvent s) (inv_frame h rfl) ht

end Sys2Proof.Proofs.Invariant
end

section
/-! PROOFS. The statements of spec/46_timers_keys.md: the timer instructions (R290 to R292), the key tests (R293, R294,
R296), and the key wait with the poll that ends it (R295; 40_execution_cycle.md R143). -/

namespace Sys2Proof.Proofs.TimersKeys

open Sys2Proof.Machine Sys2Proof.Claims Sys2Proof.Proofs.RuleWords Sys2Proof.Proofs.ExecutionCycle
  Sys2Proof.Proofs.Alu Sys2Proof.Proofs.CompareSkip Sys2Proof.Proofs.IndexMemory

/-! ### Decoding (R104 rows 24 to 29) -/

/-- A word of family E is decoded by its low byte, whatever the register. -/
theorem decode_Exkk (x : Nibble) (kk : Byte) :
    decode (wordX (0xE#4 ++ 0#4 ++ kk) x) = decodeFamilyE (0xE#4 ++ x ++ kk) := by
  rw [wordX_family]
  simp [decode]

theorem decode_Ex9E (x : Nibble) : decode (wordX 0xE09E x) = .known (.skp x) :=
  (decode_Exkk x 0x9E#8).trans (by simp [decodeFamilyE])

theorem decode_ExA1 (x : Nibble) : decode (wordX 0xE0A1 x) = .known (.sknp x) :=
  (decode_Exkk x 0xA1#8).trans (by simp [decodeFamilyE])

theorem decode_Fx07 (x : Nibble) : decode (wordX 0xF007 x) = .known (.ldVxDt x) :=
  (decode_Fxkk x 0x07#8).trans (by simp [decodeFamilyF])

theorem decode_Fx0A (x : Nibble) : decode (wordX 0xF00A x) = .known (.ldVxK x) :=
  (decode_Fxkk x 0x0A#8).trans (by simp [decodeFamilyF])

theorem decode_Fx15 (x : Nibble) : decode (wordX 0xF015 x) = .known (.ldDtVx x) :=
  (decode_Fxkk x 0x15#8).trans (by simp [decodeFamilyF])

theorem decode_Fx18 (x : Nibble) : decode (wordX 0xF018 x) = .known (.ldStVx x) :=
  (decode_Fxkk x 0x18#8).trans (by simp [decodeFamilyF])

/-! ### The key wait (R295) and its poll (R143, D16) -/

/-- A key that is down is the least one where every key below it is up. -/
theorem leastKey_eq_some {keys : Word} {k : Nibble} (hk : keys.getLsbD k.toNat = true)
    (hlow : ∀ j, j < k.toNat → keys.getLsbD j = false) : leastKey keys = some k := by
  have hfind : (List.range 16).find? (fun j => keys.getLsbD j) = some k.toNat :=
    List.find?_range_eq_some.2 ⟨hk, List.mem_range.2 k.isLt, fun j hj => by rw [hlow j hj]; rfl⟩
  rw [leastKey, hfind, Option.map_some, BitVec.ofNat_toNat, BitVec.setWidth_eq]

theorem poll_noKey {s : State} (h : leastKey s.keys = none) : poll s = s := by
  rw [poll, h]

theorem poll_key {s : State} {k : Nibble} (h : leastKey s.keys = some k) :
    poll s = { (s.setReg s.w (k.setWidth 8)).advance with engine := .running } := by
  rw [poll, h]

/-- Settles O47: FX0A's meaning is the entry of the wait, and a cycle in the wait is one poll, which goes by the least key
that is down. -/
theorem keyWaitEndsWithTheLeastKey : Obligations.KeyWaitEndsWithTheLeastKey := by
  refine ⟨fun x s => ⟨decode_Fx0A x, rfl⟩, fun s hevent hE => ⟨fun hkeys => ?_, fun k hk hlow => ?_⟩⟩
  · have hnone : leastKey (atCycle s).keys = none := (leastKey_eq_none_iff s.keys).2 hkeys
    rw [step_cycle_waiting hevent hE, poll_noKey hnone]
  · have hsome : leastKey (atCycle s).keys = some k := leastKey_eq_some hk hlow
    rw [step_cycle_waiting hevent hE, poll_key hsome]
    exact ⟨_, rfl, rfl, fun r => setReg_reg (atCycle s) s.w r (k.setWidth 8)⟩

/-! ### The timers (R290 to R292) -/

/-- Settles O45: FX07 is one register write, VF a register like the others; FX15 and FX18 each write one timer. -/
theorem timerInstructionsMoveTheTimers : Obligations.TimerInstructionsMoveTheTimers :=
  fun x s => ⟨⟨decode_Fx07 x, _, rfl, setReg_writesReg s x s.dt⟩, ⟨decode_Fx15 x, rfl⟩, ⟨decode_Fx18 x, rfl⟩⟩

/-! ### The key tests (R293, R294) -/

/-- The key tested is the one of the low nibble (R296, D14). -/
theorem keyDown_lowNibble (keys : Word) (b : Byte) : keyDown keys (lowNibble b) = keys.getLsbD (b.toNat % 16) := by
  rw [keyDown, lowNibble_toNat]

/-- Settles O46: each meaning is one skip, by the latch slot of the key tested. -/
theorem keyTestsSkipByTheLowNibble : Obligations.KeyTestsSkipByTheLowNibble :=
  fun x s => ⟨⟨decode_Ex9E x, next_skipIf s (by rw [keyDown_lowNibble])⟩,
    ⟨decode_ExA1 x, next_skipIf s (by rw [keyDown_lowNibble, Bool.not_eq_true'])⟩⟩

end Sys2Proof.Proofs.TimersKeys
end

section
/-! PROOFS. The statement of spec/60_exceptions.md: the only way into HaltedOnFault is a running cycle that raises a fault,
and a fault is precise (R311, R315). -/

namespace Sys2Proof.Proofs.Exceptions

open Sys2Proof.Machine Sys2Proof.Claims Sys2Proof.Proofs.FetchFaults Sys2Proof.Proofs.ExecutionCycle

/-- A running instruction that halts the engine raised a fault; FX0A and every other outcome leave it not halted. -/
theorem runInstruction_halts {s t : State} (hE : s.engine = .running) (h : runInstruction s = .next t)
    (ht : t.engine = .haltedOnFault) : ∃ c w a, t = raise s c w a := by
  rcases runInstruction_engine_cases h with ⟨hkept, -, -⟩ | ⟨c, w, a, hraise, -⟩ | ⟨x, -, rfl⟩
  · cases (hkept.trans hE).symm.trans ht
  · exact ⟨c, w, a, hraise⟩
  · cases ht

/-- A poll goes on waiting or runs again (R143). -/
theorem poll_notHalted {s : State} (hE : s.engine = .waitingForKey) : (poll s).engine ≠ .haltedOnFault := by
  rw [poll_waiting_engine hE]
  split
  · nofun
  · nofun

/-- A step that halts the engine is a cycle that raised a fault, on the state as the cycle found it (R311). -/
theorem step_halts {s t : State} (h : step s = .next t) (hs : s.engine ≠ .haltedOnFault)
    (ht : t.engine = .haltedOnFault) : ∃ c w a, t = raise (atCycle s) c w a := by
  by_cases hcycle : nextEvent s = .cycle
  · cases hE : s.engine with
    | haltedOnFault => exact absurd hE hs
    | waitingForKey =>
      cases (step_cycle_waiting hcycle hE).symm.trans h
      exact absurd ht (poll_notHalted (s := atCycle s) hE)
    | running =>
      exact runInstruction_halts (s := atCycle s) hE ((step_runningCycle ⟨hcycle, hE⟩).symm.trans h) ht
  · by_cases hreset : nextEvent s = .reset
    · cases (step_reset hreset).symm.trans h
      cases ht
    · obtain ⟨hkept, -⟩ := step_keeps_engine hreset hcycle h
      exact absurd (hkept.symm.trans ht) hs

/-- Settles O11: the step raised a fault, and `raise` writes `E` and `FR` only; taking the event touches the host's side. -/
theorem faultsArePrecise : Obligations.FaultsArePrecise := by
  intro s t h hs ht
  obtain ⟨c, w, a, rfl⟩ := step_halts h hs ht
  exact ⟨rfl, rfl, nofun, rfl⟩

end Sys2Proof.Proofs.Exceptions
end

section
/-! PROOFS. The statements of spec/30_encoding.md on the encoder and the decoder together: each undoes the other (R101,
R102, R104). -/

namespace Sys2Proof.Proofs.RoundTrip

open Sys2Proof.Proofs.Encoding

/-- Decoding undoes encoding, format by format: the family is the high nibble, and in families 8, E and F the low nibble or
low byte tells the instruction; the other fields are its operands. -/
theorem decode_encode (i : Instr) : decode (encode i) = .known i := by
  cases i with
  | cls | ret => rfl
  | jp | call | ldI | jpV0 => simp [encode, decode]
  | seImm | sneImm | ldImm | addImm | rnd => simp [encode, decode]
  | seReg | sneReg | drw => simp [encode, decode]
  | ldReg | orReg | andReg | xorReg | addReg | subReg | shr | subnReg | shl => simp [encode, decode, decodeFamily8]
  | skp | sknp => simp [encode, decode, decodeFamilyE]
  | ldVxDt | ldVxK | ldDtVx | ldStVx | addIVx | ldFVx | ldBVx | storeRegs | loadRegs =>
    simp [encode, decode, decodeFamilyF]

/-- The two bytes of a word that decodes, followed by any rest, decode to its instruction and that rest (R100). -/
theorem decodeBytes_of_decode {w : Word} {i : Instr} (h : decode w = .known i) (rest : List Byte) :
    decodeBytes (highByte w :: lowByte w :: rest) = .known i rest := by
  rw [decodeBytes, wordOfBytes_bytes, h]

/-- Settles O1, by the formats; the byte decoder puts the word together again from its two bytes. -/
theorem decodeOfEncodeIsTheInstruction : Obligations.DecodeOfEncodeIsTheInstruction :=
  fun i => ⟨decode_encode i, decodeBytes_of_decode (decode_encode i)⟩

/-- Settles O2: each row of the decoder reads every bit that its instruction's format does not fix. -/
theorem encodeOfDecodeIsTheWord : Obligations.EncodeOfDecodeIsTheWord :=
  fun _ _ => encode_of_decode

end Sys2Proof.Proofs.RoundTrip
end

section
/-! PROOFS. The statements of spec/70_reset_and_hazards.md: the reset values and `reset()` (R350, R353), the font (R351),
`load()` and its window (R356, R357), and the end of a run (R365); and that no other step than a late `load` is refused. -/

namespace Sys2Proof.Proofs.ResetAndHazards

open Sys2Proof.Machine Sys2Proof.Claims Sys2Proof.Proofs.FetchFaults Sys2Proof.Proofs.Encoding
  Sys2Proof.Proofs.ExecutionCycle Sys2Proof.Proofs.IndexMemory Sys2Proof.Proofs.Invariant
  Sys2Proof.Proofs.StateElements Sys2Proof.Proofs.ControlTransfer

/-! ### Reset (R350, R353) -/

theorem reset_byteAt_above {a : Nat} (h : 80 ≤ a) : State.reset.byteAt a = 0 := by
  have hout : ¬ inFont a = true := by rw [inFont_iff]; omega
  exact if_neg hout

/-- Settles O15: the reset values one by one, and `reset()` is the reset state but for the latch and the host's side. -/
theorem resetSetsEveryElementButTheLatch : Obligations.ResetSetsEveryElementButTheLatch := by
  refine ⟨⟨fun r => ?_, rfl, rfl, rfl, fun k hk => ?_, rfl, rfl, rfl, rfl, rfl, get_clear, by decide,
    fun a => reset_byteAt_above⟩, fun s h => ⟨_, step_reset h, rfl⟩⟩
  · exact Vector.getElem_replicate r.isLt
  · exact Vector.getElem_replicate hk

/-- Settles O19: at reset memory is in its canonical form, the engine runs, `FR` is clear and the stack is empty. -/
theorem resetMeetsTheInvariant : Obligations.ResetMeetsTheInvariant := inv_reset

/-! ### Load (R356, R357) -/

theorem step_load {s : State} {bytes : List Byte} (h : nextEvent s = .load bytes) :
    step s = loadCall bytes (takeEvent s) := by
  rw [step, h, perform]

/-- The state after a `load` in its window that answers `r` and leaves `m` in memory: the window is closed. -/
def loaded (s : State) (m : Memory) (r : LoadResult) : State :=
  { s with mem := m, host := { s.host with loadAdmitted := false, loadResult := some r } }

theorem loadCall_tooLong {s : State} {bytes : List Byte} (hwin : s.host.loadAdmitted = true)
    (hsize : 3584 < bytes.length) : loadCall bytes s = .next (loaded s s.mem .sizeExceeded) := by
  rw [loadCall, if_pos hwin, if_pos (show romMax < bytes.length from hsize), loaded]

theorem loadCall_fits {s : State} {bytes : List Byte} (hwin : s.host.loadAdmitted = true)
    (hsize : bytes.length ≤ 3584) :
    loadCall bytes s = .next (loaded s (Memory.writeList s.mem 0x200 bytes) .ok) := by
  rw [loadCall, if_pos hwin, if_neg (Nat.not_lt.2 (show bytes.length ≤ romMax from hsize))]
  rfl

theorem loadCall_closed {s : State} (bytes : List Byte) (hwin : s.host.loadAdmitted = false) :
    loadCall bytes s = .refused .loadNotAdmitted := by
  rw [loadCall, hwin]
  rfl

/-- Everything a `load` can do: refuse outside its window; else answer, and close the window. -/
theorem loadCall_cases (bytes : List Byte) (s : State) :
    (s.host.loadAdmitted = false ∧ loadCall bytes s = .refused .loadNotAdmitted) ∨
    loadCall bytes s = .next (loaded s s.mem .sizeExceeded) ∨
    loadCall bytes s = .next (loaded s (Memory.writeList s.mem 0x200 bytes) .ok) := by
  cases hwin : s.host.loadAdmitted with
  | false => exact .inl ⟨rfl, loadCall_closed bytes hwin⟩
  | true =>
    rcases Nat.lt_or_ge 3584 bytes.length with hsize | hsize
    · exact .inr (.inl (loadCall_tooLong hwin hsize))
    · exact .inr (.inr (loadCall_fits hwin hsize))

theorem loaded_byteAt_image {s : State} {bytes : List Byte} {r : LoadResult} {k : Nat} (h : k < bytes.length) :
    (loaded s (Memory.writeList s.mem 0x200 bytes) r).byteAt (0x200 + k) = bytes[k] := by
  refine (read_writeList bytes s.mem 0x200 (0x200 + k)).trans ?_
  rw [dif_pos (by omega)]
  simp only [Nat.add_sub_cancel_left]

theorem loaded_byteAt_other {s : State} {bytes : List Byte} {r : LoadResult} {a : Nat}
    (h : a < 0x200 ∨ 0x200 + bytes.length ≤ a) :
    (loaded s (Memory.writeList s.mem 0x200 bytes) r).byteAt a = s.byteAt a :=
  read_writeList_other bytes s.mem 0x200 a h

/-- Settles O16, by the length of the image: the two answers of a `load` in its window. -/
theorem loadCopiesTheImageOrNothing : Obligations.LoadCopiesTheImageOrNothing := by
  intro s bytes hevent hwin
  have hopen : (takeEvent s).host.loadAdmitted = true := hwin
  refine ⟨fun hsize => ?_, fun hsize => ?_⟩
  · exact ⟨_, (step_load hevent).trans (loadCall_tooLong hopen hsize), rfl, rfl⟩
  · exact ⟨_, (step_load hevent).trans (loadCall_fits hopen hsize), rfl, rfl, fun _ => loaded_byteAt_image,
      fun _ => loaded_byteAt_other⟩

/-! ### What a cycle and a tick do to memory and to the window of `load` -/

/-- `t` has the memory of `s` but for bytes stored at `I` upwards, all their checks passed (20_memory.md R75); and its
`load` window is that of `s`. -/
def StoresChecked (s t : State) : Prop :=
  (t.mem = s.mem ∨ ∃ bs, storeFault s.i.toNat bs.length = none ∧ t.mem = Memory.writeList s.mem s.i.toNat bs) ∧
    t.host.loadAdmitted = s.host.loadAdmitted

theorem exec_storesChecked (i : Instr) (s : State) : ∃ t, exec i s = .next t ∧ StoresChecked s t := by
  obtain ⟨t, ht, hcases⟩ := exec_cases i s
  refine ⟨t, ht, ?_⟩
  rcases hcases with ⟨⟨_, _, _, _, _, _, _, rfl⟩, -⟩ | ⟨_, _, rfl, -⟩ | ⟨_, -, rfl⟩ | ⟨⟨bs, _, hcheck, rfl⟩, -⟩ |
    ⟨⟨_, _, rfl⟩, -⟩ | ⟨⟨_, rfl⟩, -⟩
  · exact ⟨.inl rfl, rfl⟩
  · exact ⟨.inl rfl, rfl⟩
  · exact ⟨.inl rfl, rfl⟩
  · exact ⟨.inr ⟨bs, hcheck, rfl⟩, rfl⟩
  · exact ⟨.inl rfl, rfl⟩
  · exact ⟨.inl rfl, rfl⟩

/-- Every cycle answers a next state: a fault is one, and so is what a halted engine keeps (R141, R311). -/
theorem cycle_storesChecked (s : State) : ∃ t, cycle s = .next t ∧ StoresChecked s t := by
  cases hE : s.engine with
  | haltedOnFault => exact ⟨s, cycle_halted hE, .inl rfl, rfl⟩
  | waitingForKey =>
    refine ⟨_, cycle_waiting hE, ?_⟩
    rcases poll_cases s with ⟨-, hpoll⟩ | ⟨k, -, hpoll⟩
    · rw [hpoll]; exact ⟨.inl rfl, rfl⟩
    · rw [hpoll]; exact ⟨.inl rfl, rfl⟩
  | running =>
    have hcycle : cycle s = runInstruction s := by rw [cycle, hE]
    rw [hcycle]
    rcases runInstruction_cases s with ⟨c, a, -, hr⟩ | ⟨-, w, -, hr⟩ | ⟨-, i, -, hr⟩
    · exact ⟨_, hr, .inl rfl, rfl⟩
    · exact ⟨_, hr, .inl rfl, rfl⟩
    · rw [hr]; exact exec_storesChecked i s

theorem tick_keeps_mem_host (s : State) : (tick s).mem = s.mem ∧ (tick s).host = s.host := by
  by_cases hE : s.engine = .haltedOnFault
  · rw [tick_halted hE]; exact ⟨rfl, rfl⟩
  · rw [tick_notHalted hE]; exact ⟨rfl, rfl⟩

/-- Settles O12, by the event: only `load` can refuse, and it does so only outside its window. -/
theorem onlyALateLoadIsRefused : Obligations.OnlyALateLoadIsRefused := by
  intro s
  cases hevent : nextEvent s with
  | reset => exact .inl ⟨_, step_reset hevent⟩
  | tick => exact .inl ⟨_, step_tick hevent⟩
  | keyWrite k down => exact .inl ⟨_, step_keyWrite hevent⟩
  | cycle =>
    obtain ⟨t, ht, -⟩ := cycle_storesChecked (atCycle s)
    exact .inl ⟨t, (step_cycle hevent).trans ht⟩
  | load bytes =>
    rw [step_load hevent]
    rcases loadCall_cases bytes (takeEvent s) with ⟨hwin, hl⟩ | hl | hl
    · exact .inr ⟨hl, hwin, bytes, rfl⟩
    · exact .inl ⟨_, hl⟩
    · exact .inl ⟨_, hl⟩

/-! ### The window of `load` (R357) -/

theorem loadCall_closes {bytes : List Byte} {s t : State} (h : loadCall bytes s = .next t) :
    t.host.loadAdmitted = false := by
  rcases loadCall_cases bytes s with ⟨-, hl⟩ | hl | hl
  · cases hl.symm.trans h
  · cases hl.symm.trans h; rfl
  · cases hl.symm.trans h; rfl

/-- Settles O17, by the event; a cycle keeps the window that it found closed. -/
theorem loadWindowOpensAtResetAndCloses : Obligations.LoadWindowOpensAtResetAndCloses := by
  refine ⟨rfl, fun s t h => ?_, fun s bytes hevent hwin => (step_load hevent).trans (loadCall_closed bytes hwin)⟩
  cases hevent : nextEvent s with
  | reset => cases (step_reset hevent).symm.trans h; rfl
  | load bytes => exact loadCall_closes ((step_load hevent).symm.trans h)
  | cycle =>
    obtain ⟨u, hu, -, hwin⟩ := cycle_storesChecked (atCycle s)
    cases hu.symm.trans ((step_cycle hevent).symm.trans h)
    exact hwin
  | tick =>
    cases (step_tick hevent).symm.trans h
    rw [(tick_keeps_mem_host (takeEvent s)).2]
    rfl
  | keyWrite k down => cases (step_keyWrite hevent).symm.trans h; rfl

/-! ### The font (R351) -/

theorem fontIntact_of_mem {s t : State} (hs : FontIntact s) (h : t.mem = s.mem) : FontIntact t := by
  intro a ha
  rw [State.byteAt, h]
  exact hs a ha

theorem fontIntact_of_storesChecked {s t : State} (hs : FontIntact s) (h : StoresChecked s t) : FontIntact t := by
  obtain ⟨hmem | ⟨bs, hcheck, hmem⟩, -⟩ := h
  · exact fontIntact_of_mem hs hmem
  · obtain ⟨-, hout⟩ := (storeFault_none s.i.toNat bs.length).1 hcheck
    intro a ha
    rw [State.byteAt, hmem]
    exact font_read_writeList hs hout a ha

/-- The image of a `load` starts at 0x200, above the font (R356). -/
theorem fontIntact_loadCall {bytes : List Byte} {s t : State} (hs : FontIntact s) (h : loadCall bytes s = .next t) :
    FontIntact t := by
  rcases loadCall_cases bytes s with ⟨-, hl⟩ | hl | hl
  · cases hl.symm.trans h
  · cases hl.symm.trans h; exact hs
  · cases hl.symm.trans h
    intro a ha
    have hlow : a ≤ 0x4F := (inFont_iff a).1 ha
    rw [loaded_byteAt_other (by omega), hs a ha]

/-- Settles O21, by the event: a cycle's stores pass the font check, a `load` writes above the font, and the other events
write no byte; `reset()` puts the glyphs back. -/
theorem fontIsNeverMutated : Obligations.FontIsNeverMutated := by
  refine ⟨inv_reset.font, fun s t hs h => ?_⟩
  cases hevent : nextEvent s with
  | reset => cases (step_reset hevent).symm.trans h; exact inv_reset.font
  | load bytes => exact fontIntact_loadCall (s := takeEvent s) hs ((step_load hevent).symm.trans h)
  | cycle =>
    obtain ⟨u, hu, hstores⟩ := cycle_storesChecked (atCycle s)
    cases hu.symm.trans ((step_cycle hevent).symm.trans h)
    exact fontIntact_of_storesChecked (s := atCycle s) hs hstores
  | tick =>
    cases (step_tick hevent).symm.trans h
    exact fontIntact_of_mem (s := takeEvent s) hs (tick_keeps_mem_host (takeEvent s)).1
  | keyWrite k down => cases (step_keyWrite hevent).symm.trans h; exact hs

/-! ### The end of a run (R365, D29) -/

/-- An address that a fetch accepts fits the 12 bits of a jump's target. -/
theorem zext16_setWidth_of_fetchable {a : Word} (h : fetchable a = true) : zext16 (a.setWidth 12) = a := by
  obtain ⟨-, hin⟩ := (fetchable_iff a).1 h
  apply BitVec.eq_of_toNat_eq
  rw [zext16_toNat, BitVec.toNat_setWidth]
  omega

/-- Settles O24: the cycle jumps to where `PC` is, and a tick writes none of what `AtSelfJump` names. -/
theorem selfJumpIsTheEndOfARun : Obligations.SelfJumpIsTheEndOfARun := by
  rintro a s ⟨hE, rfl, hfetch, hdecode⟩
  refine ⟨fun hevent => ?_, fun hevent => ?_⟩
  · have hnone : fetchFault (atCycle s).pc = none := Option.isNone_iff_eq_none.1 hfetch
    rw [step_runningCycle ⟨hevent, hE⟩, runInstruction_known hnone hdecode, exec, execJp,
      zext16_setWidth_of_fetchable hfetch]
    rfl
  · have hrun : s.engine ≠ .haltedOnFault := by simp [hE]
    exact ⟨_, step_tick_notHalted hevent hrun, hE, rfl, hfetch, hdecode⟩

end Sys2Proof.Proofs.ResetAndHazards
end
